-- ==== Sys2Proof/Word.lean ====
section
/-! DEFINITION. The word types of the 80386's I/O architecture: bytes, port addresses, doublewords, the three transfer
widths and the two operand and address sizes. -/

namespace Sys2Proof

/-- A byte: 8 bits (spec/00 section 5). -/
abbrev Byte := BitVec 8

/-- A port address: 16 bits (spec/20 R40). -/
abbrev Port := BitVec 16

/-- A doubleword: 32 bits; the width of a general register, of EFLAGS, of EIP and of a linear address. -/
abbrev Dword := BitVec 32

/-- The three widths of an I/O transfer: 1, 2 or 4 bytes; no other width exists (spec/20 R45). -/
inductive Width where
  | byte
  | word
  | dword
  deriving DecidableEq, Repr

/-- An operand size or an address size: 16 or 32 (spec/30 R82, R83). -/
inductive Size where
  | s16
  | s32
  deriving DecidableEq, Repr

end Sys2Proof
end

