-- ==== Sys2Proof/Config.lean ====
section
/-! DEFINITION. What an implementation or the platform fixes (spec/00 section 4), the I/O events, and the two free
values of the model: what a port read returns and which flags image POPF pops. -/

namespace Sys2Proof

/-- The direction of a port access. -/
inductive IoDir where
  | read
  | write
  deriving DecidableEq, Repr

/-- One entry of the I/O event history: `IoRead(p, n, v)` or `IoWrite(p, n, v)` (spec/10 R30, spec/20 R48). The value of
`8n` bits is held zero-extended to 32 bits. -/
structure IoEvent where
  dir   : IoDir
  port  : Port
  width : Width
  value : Dword
  deriving DecidableEq, Repr

/-- The parameters of a run (spec/00 section 4). No instruction writes them. `iopbExtraByte` is the spec's parameter
`IopbExtraByte`, false by default (spec/92 D13). -/
structure Params where
  defaultOpSize   : Size
  defaultAddrSize : Size
  iopbExtraByte   : Bool
  deriving DecidableEq, Repr

/-- `PortOracle(history, p, n)` (spec/20 R48): what the device answers to a port read. A FREE VALUE: no body, no law
(log 4). -/
opaque Config.portOracle : List IoEvent → Port → Width → Dword

/-- The flags image popped by the n-th POPF (spec/42 R145, spec/93 U21). A FREE VALUE: no body, no law (log 8). -/
opaque Config.popfImage : Nat → Dword

end Sys2Proof
end

