-- ==== Sys2Proof/Syntax.lean ====
section
/-! DEFINITION. The instructions: one constructor per row of spec/opcode_table.json. -/

namespace Sys2Proof

/-- The six segment registers (spec/10 R22; the four beside ES and DS from general knowledge, GK26). -/
inductive Seg where
  | es
  | cs
  | ss
  | ds
  | fs
  | gs
  deriving DecidableEq, Repr

/-- The prefix bytes that stand before an instruction's opcode, REP apart: an operand-size byte (66), an address-size byte
(67), a segment override. At most one of each kind (spec/30 R81), so three fields say which are there. -/
structure Prefixes where
  opSize   : Bool
  addrSize : Bool
  seg      : Option Seg
  deriving DecidableEq, Repr

/-- The six string instructions that REP may repeat (spec/41 R131). -/
inductive StringOp where
  | insb
  | insw
  | insd
  | outsb
  | outsw
  | outsd
  deriving DecidableEq, Repr

/-- The instructions of the spec (spec/00 R4, spec/30 R85). Every operand but the immediate port, the prefixes and REP's
string instruction is implicit (spec/30 R84). -/
inductive Instr where
  /-- `IN AL, imm8` (R101) -/
  | inAlImm8 (p : Prefixes) (imm8 : Byte)
  /-- `IN AX, imm8` (R102) -/
  | inAxImm8 (p : Prefixes) (imm8 : Byte)
  /-- `IN EAX, imm8` (R103) -/
  | inEaxImm8 (p : Prefixes) (imm8 : Byte)
  /-- `IN AL, DX` (R104) -/
  | inAlDx (p : Prefixes)
  /-- `IN AX, DX` (R105) -/
  | inAxDx (p : Prefixes)
  /-- `IN EAX, DX` (R106) -/
  | inEaxDx (p : Prefixes)
  /-- `OUT imm8, AL` (R107) -/
  | outImm8Al (p : Prefixes) (imm8 : Byte)
  /-- `OUT imm8, AX` (R108) -/
  | outImm8Ax (p : Prefixes) (imm8 : Byte)
  /-- `OUT imm8, EAX` (R109) -/
  | outImm8Eax (p : Prefixes) (imm8 : Byte)
  /-- `OUT DX, AL` (R110) -/
  | outDxAl (p : Prefixes)
  /-- `OUT DX, AX` (R111) -/
  | outDxAx (p : Prefixes)
  /-- `OUT DX, EAX` (R112) -/
  | outDxEax (p : Prefixes)
  /-- `INSB` (R123) -/
  | insb (p : Prefixes)
  /-- `INSW` (R124) -/
  | insw (p : Prefixes)
  /-- `INSD` (R125) -/
  | insd (p : Prefixes)
  /-- `OUTSB` (R127) -/
  | outsb (p : Prefixes)
  /-- `OUTSW` (R128) -/
  | outsw (p : Prefixes)
  /-- `OUTSD` (R129) -/
  | outsd (p : Prefixes)
  /-- `REP` before a string instruction (R131) -/
  | rep (p : Prefixes) (x : StringOp)
  /-- `CLI` (R141) -/
  | cli (p : Prefixes)
  /-- `STI` (R142) -/
  | sti (p : Prefixes)
  /-- `POPF`, and `POPFD` with a 32-bit operand size (R143 to R145) -/
  | popf (p : Prefixes)
  deriving DecidableEq, Repr

end Sys2Proof
end

