-- ==== Sys2Proof/WellFormed.lean ====
section
/-! DEFINITION. Which terms of Instr are instructions under a given default operand size: a form that moves a word or a
doubleword must have the operand size it needs (spec/30 R82, R85). -/

namespace Sys2Proof

/-- The operand size is 16: the 66 byte stands exactly when the default is 32 (spec/30 R82). -/
def wantsSize16 (d : Size) (p : Prefixes) : Bool := p.opSize == (d == .s32)

/-- The operand size is 32: the 66 byte stands exactly when the default is 16 (spec/30 R82). -/
def wantsSize32 (d : Size) (p : Prefixes) : Bool := p.opSize == (d == .s16)

/-- The operand-size condition of a string instruction (spec/30 R85: 6D and 6F are word or doubleword by opsize). -/
def wellFormedString (d : Size) (p : Prefixes) : StringOp → Bool
  | .insb => true
  | .insw => wantsSize16 d p
  | .insd => wantsSize32 d p
  | .outsb => true
  | .outsw => wantsSize16 d p
  | .outsd => wantsSize32 d p

/-- The instruction is one that the default operand size `d` allows: the `Condition` column of spec/30 R85. -/
def wellFormed (d : Size) : Instr → Bool
  | .inAlImm8 _ _ => true
  | .inAxImm8 p _ => wantsSize16 d p
  | .inEaxImm8 p _ => wantsSize32 d p
  | .inAlDx _ => true
  | .inAxDx p => wantsSize16 d p
  | .inEaxDx p => wantsSize32 d p
  | .outImm8Al _ _ => true
  | .outImm8Ax p _ => wantsSize16 d p
  | .outImm8Eax p _ => wantsSize32 d p
  | .outDxAl _ => true
  | .outDxAx p => wantsSize16 d p
  | .outDxEax p => wantsSize32 d p
  | .insb p => wellFormedString d p .insb
  | .insw p => wellFormedString d p .insw
  | .insd p => wellFormedString d p .insd
  | .outsb p => wellFormedString d p .outsb
  | .outsw p => wellFormedString d p .outsw
  | .outsd p => wellFormedString d p .outsd
  | .rep p x => wellFormedString d p x
  | .cli _ => true
  | .sti _ => true
  | .popf _ => true

end Sys2Proof
end

