-- ==== Sys2Proof/Decode.lean ====
section
/-! DEFINITION. The decoder, total on any bytes and refusing by name (spec/30 R80 to R90), and after it the encoder.
Every byte value is the spec's general knowledge (GK1, GK2; log 2). -/

namespace Sys2Proof

/-- What a prefix byte is (spec/30 R81). -/
inductive PrefixByte where
  | opSize
  | addrSize
  | rep
  | repne
  | lock
  | seg (s : Seg)
  deriving DecidableEq, Repr

/-- Why bytes are no instruction of the spec. Each is a refusal, never an illegal instruction (spec/30 R88). -/
inductive DecodeError where
  /-- The bytes end before the instruction does: at the code segment's limit or at the end of the program text. -/
  | endOfBytes
  /-- A prefix kind occurs twice, a second segment override among them (R81). -/
  | repeatedPrefix
  /-- REPNE, F2 (R89). -/
  | repne
  /-- LOCK, F0 (R90). -/
  | lock
  /-- REP before an instruction other than INS and OUTS (R89). -/
  | repBeforeNonString
  /-- An opcode that is not in R85 (R88). -/
  | foreignOpcode (op : Byte)
  deriving DecidableEq, Repr

/-- An instruction and the bytes after it, or the reason there is none. -/
inductive DecodeResult where
  | ok (i : Instr) (rest : List Byte)
  | error (e : DecodeError)
  deriving DecidableEq, Repr

/-- The prefixes read so far: REP and the others. -/
structure PrefixState where
  rep : Bool
  pfx : Prefixes
  deriving DecidableEq, Repr

/-- No prefix. -/
def noPrefixes : Prefixes := ⟨false, false, none⟩

/-- The table of prefix bytes (spec/30 R81). -/
def prefixByteOf (b : Byte) : Option PrefixByte :=
  match b.toNat with
  | 0x66 => some .opSize
  | 0x67 => some .addrSize
  | 0xF3 => some .rep
  | 0xF2 => some .repne
  | 0xF0 => some .lock
  | 0x26 => some (.seg .es)
  | 0x2E => some (.seg .cs)
  | 0x36 => some (.seg .ss)
  | 0x3E => some (.seg .ds)
  | 0x64 => some (.seg .fs)
  | 0x65 => some (.seg .gs)
  | _ => none

/-- Note one prefix byte: at most one of each kind is admitted (R81), REPNE and LOCK never (R89, R90). -/
def notePrefix (ps : PrefixState) : PrefixByte → Except DecodeError PrefixState
  | .opSize =>
    if ps.pfx.opSize then .error .repeatedPrefix else .ok { ps with pfx := { ps.pfx with opSize := true } }
  | .addrSize =>
    if ps.pfx.addrSize then .error .repeatedPrefix else .ok { ps with pfx := { ps.pfx with addrSize := true } }
  | .rep => if ps.rep then .error .repeatedPrefix else .ok { ps with rep := true }
  | .repne => .error .repne
  | .lock => .error .lock
  | .seg s =>
    if ps.pfx.seg.isSome then .error .repeatedPrefix else .ok { ps with pfx := { ps.pfx with seg := some s } }

/-- The size in force: the default, or the other one where the 66 or 67 byte stands (spec/30 R82, R83). -/
def effectiveSize (d : Size) (switched : Bool) : Size :=
  match d, switched with
  | .s16, false => .s16
  | .s16, true => .s32
  | .s32, false => .s32
  | .s32, true => .s16

/-- The string opcodes of R85, by operand size. -/
def stringOpOf (sz : Size) (op : Byte) : Option StringOp :=
  match op.toNat with
  | 0x6C => some .insb
  | 0x6D => some (match sz with | .s16 => .insw | .s32 => .insd)
  | 0x6E => some .outsb
  | 0x6F => some (match sz with | .s16 => .outsw | .s32 => .outsd)
  | _ => none

/-- A string instruction without REP. -/
def stringInstr (p : Prefixes) : StringOp → Instr
  | .insb => .insb p
  | .insw => .insw p
  | .insd => .insd p
  | .outsb => .outsb p
  | .outsw => .outsw p
  | .outsd => .outsd p

/-- The immediate byte of format `OP_IB`: the byte right after the opcode (spec/30 R80). -/
def withImm8 (rest : List Byte) (f : Byte → Instr) : DecodeResult :=
  match rest with
  | [] => .error .endOfBytes
  | imm :: rest' => .ok (f imm) rest'

/-- The opcodes of R85 other than the string instructions, by operand size. -/
def decodePlain (sz : Size) (p : Prefixes) (op : Byte) (rest : List Byte) : DecodeResult :=
  match op.toNat with
  | 0xE4 => withImm8 rest (.inAlImm8 p)
  | 0xE5 => withImm8 rest (match sz with | .s16 => .inAxImm8 p | .s32 => .inEaxImm8 p)
  | 0xE6 => withImm8 rest (.outImm8Al p)
  | 0xE7 => withImm8 rest (match sz with | .s16 => .outImm8Ax p | .s32 => .outImm8Eax p)
  | 0xEC => .ok (.inAlDx p) rest
  | 0xED => .ok (match sz with | .s16 => .inAxDx p | .s32 => .inEaxDx p) rest
  | 0xEE => .ok (.outDxAl p) rest
  | 0xEF => .ok (match sz with | .s16 => .outDxAx p | .s32 => .outDxEax p) rest
  | 0xFA => .ok (.cli p) rest
  | 0xFB => .ok (.sti p) rest
  | 0x9D => .ok (.popf p) rest
  | _ => .error (.foreignOpcode op)

/-- The opcode lookup of R86: a string instruction, repeated or not, or a plain one, which REP may not stand before (R89). -/
def decodeOpcode (d : Size) (ps : PrefixState) (op : Byte) (rest : List Byte) : DecodeResult :=
  match stringOpOf (effectiveSize d ps.pfx.opSize) op with
  | some x => .ok (if ps.rep then .rep ps.pfx x else stringInstr ps.pfx x) rest
  | none =>
    match decodePlain (effectiveSize d ps.pfx.opSize) ps.pfx op rest with
    | .ok i rest' => if ps.rep then .error .repBeforeNonString else .ok i rest'
    | .error e => .error e

/-- The decoding procedure of R86 from the prefixes `ps` on: read prefix bytes, noting each; the next byte is the opcode. -/
def decodeFrom (d : Size) : PrefixState → List Byte → DecodeResult
  | _, [] => .error .endOfBytes
  | ps, b :: bs =>
    match prefixByteOf b with
    | some k =>
      match notePrefix ps k with
      | .ok ps' => decodeFrom d ps' bs
      | .error e => .error e
    | none => decodeOpcode d ps b bs

/-- Decode one instruction under the default operand size `d` (spec/30 R86). -/
def decode (d : Size) (bytes : List Byte) : DecodeResult :=
  decodeFrom d ⟨false, noPrefixes⟩ bytes

/-! ## Lengths -/

/-- The number of prefix bytes, REP apart. -/
def prefixCount (p : Prefixes) : Nat :=
  (if p.opSize then 1 else 0) + (if p.addrSize then 1 else 0) + (if p.seg.isSome then 1 else 0)

/-- `len` = prefixes + 1 for format `OP` (spec/30 R87). -/
def lengthOp (p : Prefixes) : Nat := prefixCount p + 1

/-- `len` = prefixes + 2 for format `OP_IB`, and for a string instruction with REP (spec/30 R87). -/
def lengthOpPlusOne (p : Prefixes) : Nat := prefixCount p + 2

/-- The length of an instruction in bytes, its prefixes included (spec/30 R87). -/
def instrLength : Instr → Nat
  | .inAlImm8 p _ => lengthOpPlusOne p
  | .inAxImm8 p _ => lengthOpPlusOne p
  | .inEaxImm8 p _ => lengthOpPlusOne p
  | .inAlDx p => lengthOp p
  | .inAxDx p => lengthOp p
  | .inEaxDx p => lengthOp p
  | .outImm8Al p _ => lengthOpPlusOne p
  | .outImm8Ax p _ => lengthOpPlusOne p
  | .outImm8Eax p _ => lengthOpPlusOne p
  | .outDxAl p => lengthOp p
  | .outDxAx p => lengthOp p
  | .outDxEax p => lengthOp p
  | .insb p => lengthOp p
  | .insw p => lengthOp p
  | .insd p => lengthOp p
  | .outsb p => lengthOp p
  | .outsw p => lengthOp p
  | .outsd p => lengthOp p
  | .rep p _ => lengthOpPlusOne p
  | .cli p => lengthOp p
  | .sti p => lengthOp p
  | .popf p => lengthOp p

/-- No admitted instruction is longer than 7 bytes (spec/30 R87): what a fetch looks at. -/
def fetchWindow : Nat := 7

/-! ## The encoder -/

/-- The byte of a segment override (spec/30 R81). -/
def segByte : Seg → Byte
  | .es => 0x26
  | .cs => 0x2E
  | .ss => 0x36
  | .ds => 0x3E
  | .fs => 0x64
  | .gs => 0x65

/-- The prefix bytes in one order (any order decodes to the same, R81): segment, operand size, address size. -/
def encodePrefixes (p : Prefixes) : List Byte :=
  (match p.seg with | some s => [segByte s] | none => []) ++
  (if p.opSize then [0x66] else []) ++ (if p.addrSize then [0x67] else [])

/-- The opcode of a string instruction (spec/30 R85). -/
def stringOpcode : StringOp → Byte
  | .insb => 0x6C
  | .insw => 0x6D
  | .insd => 0x6D
  | .outsb => 0x6E
  | .outsw => 0x6F
  | .outsd => 0x6F

/-- The bytes of an instruction, from the tables of spec/30 R81 and R85. -/
def encode : Instr → List Byte
  | .inAlImm8 p imm => encodePrefixes p ++ [0xE4, imm]
  | .inAxImm8 p imm => encodePrefixes p ++ [0xE5, imm]
  | .inEaxImm8 p imm => encodePrefixes p ++ [0xE5, imm]
  | .inAlDx p => encodePrefixes p ++ [0xEC]
  | .inAxDx p => encodePrefixes p ++ [0xED]
  | .inEaxDx p => encodePrefixes p ++ [0xED]
  | .outImm8Al p imm => encodePrefixes p ++ [0xE6, imm]
  | .outImm8Ax p imm => encodePrefixes p ++ [0xE7, imm]
  | .outImm8Eax p imm => encodePrefixes p ++ [0xE7, imm]
  | .outDxAl p => encodePrefixes p ++ [0xEE]
  | .outDxAx p => encodePrefixes p ++ [0xEF]
  | .outDxEax p => encodePrefixes p ++ [0xEF]
  | .insb p => encodePrefixes p ++ [stringOpcode .insb]
  | .insw p => encodePrefixes p ++ [stringOpcode .insw]
  | .insd p => encodePrefixes p ++ [stringOpcode .insd]
  | .outsb p => encodePrefixes p ++ [stringOpcode .outsb]
  | .outsw p => encodePrefixes p ++ [stringOpcode .outsw]
  | .outsd p => encodePrefixes p ++ [stringOpcode .outsd]
  | .rep p x => 0xF3 :: (encodePrefixes p ++ [stringOpcode x])
  | .cli p => encodePrefixes p ++ [0xFA]
  | .sti p => encodePrefixes p ++ [0xFB]
  | .popf p => encodePrefixes p ++ [0x9D]

/-! ## The opcode table's words -/

/-- The bytes of a word numbered as spec/opcode_table.json numbers it: byte `k` is bits `8k+7:8k`, the bits above `nbits`
are 0, up to the longest instruction. -/
def tableBytes (nbits w : Nat) : List Byte :=
  (List.range fetchWindow).map fun k => BitVec.ofNat 8 ((w % 2 ^ nbits) >>> (8 * k))

/-- What the decoder reads from a word of the opcode table, with the 16-bit default of the reset state (GK3; log 36). -/
def decodeTableWord (nbits w : Nat) : Option Instr :=
  match decode .s16 (tableBytes nbits w) with
  | .ok i _ => some i
  | .error _ => none

end Sys2Proof
end

