-- ==== Sys2Proof/Machine/Memory.lean ====
section
/-! DEFINITION. Memory: a sorted list of address and byte pairs that lists no byte equal to what an unlisted address reads
as (spec/10 R28), with reads and writes of one byte and of little-endian groups of bytes (spec/20 R55). -/

namespace Sys2Proof.Machine

/-- Memory: the listed cells, in rising order of address. -/
abbrev Memory := List Host.Cell

/-- What an address that is not listed reads as. DESIGN CHOICE (log 14): the spec calls memory at reset undefined. -/
def unlistedByte : Byte := 0

/-- The number of addresses: 2^32 (spec/10 R28, GK27). -/
def addressSpace : Nat := 2 ^ 32

/-- The canonical form: addresses rise, no cell is what an unlisted address reads as, every address exists. -/
abbrev Memory.wf (m : Memory) : Prop :=
  List.Pairwise (fun c d => c.1 < d.1) m ∧ ∀ c ∈ m, c.2 ≠ unlistedByte ∧ c.1 < addressSpace

/-- The byte at an address. -/
def readByte : Memory → Nat → Byte
  | [], _ => unlistedByte
  | c :: m, a => if c.1 = a then c.2 else readByte m a

/-- Put a byte in front of the cells `m`, all of higher address; nothing where it is what an unlisted address reads as. -/
def consByte (a : Nat) (v : Byte) (m : Memory) : Memory :=
  if v = unlistedByte then m else (a, v) :: m

/-- Memory with the byte at `a` made `v`, in canonical form. -/
def writeByte : Memory → Nat → Byte → Memory
  | [], a, v => consByte a v []
  | c :: m, a, v =>
    if c.1 < a then c :: writeByte m a v
    else if c.1 = a then consByte a v m
    else consByte a v (c :: m)

/-- `n` bytes from the linear address `a` upward as one value, the lowest address least significant (spec/20 R55);
addresses wrap at 2^32 (log 12). -/
def readBytes (m : Memory) : Dword → Nat → Dword
  | _, 0 => 0
  | a, n + 1 => (readBytes m (a + 1) n <<< 8) ||| (readByte m a.toNat).setWidth 32

/-- Memory with the `n` low bytes of `v` stored from the linear address `a` upward, the least significant at the lowest
address (spec/20 R55). -/
def writeBytes (m : Memory) : Dword → Nat → Dword → Memory
  | _, 0, _ => m
  | a, n + 1, v => writeBytes (writeByte m a.toNat (v.setWidth 8)) (a + 1) n (v >>> 8)

/-- Memory with a list of bytes stored from the linear address `a` upward. -/
def storeList (m : Memory) : Dword → List Byte → Memory
  | _, [] => m
  | a, b :: bs => storeList (writeByte m a.toNat b) (a + 1) bs

end Sys2Proof.Machine
end

