-- ==== Sys2Proof/Machine/State.lean ====
section
/-! DEFINITION. The state of the machine, as plain data; the reasons a step can stop; the state after reset; and the
named updates of the fields that instructions write. -/

namespace Sys2Proof.Machine

/-- Why the machine stops with a fault. -/
inductive Fault where
  /-- The general protection exception (spec/60 R150, R151): vector, error code, saved instruction pointer. Raised by the
  permission check of IN, OUT, INS and OUTS and by the check of CLI and STI. Terminal (R157, log 17); the state is as
  before the instruction (R152). SAFE: the chip goes on in a handler, the model stops. -/
  | generalProtection (vector errorCode : Nat) (savedPc : Dword)
  deriving DecidableEq, Repr

/-- Why the model takes no step. Each one is the spec's own `refuse`, but for notModelled. -/
inductive Refusal where
  /-- Raised by exec for an instruction without a meaning; none is left. SAFE. -/
  | notModelled (mnemonic : String)
  /-- Raised by step: the bytes at pc are no instruction of the spec (spec/30 R88 to R90). SAFE. -/
  | undecodable (e : DecodeError)
  /-- Raised by a port access and its check: `p + n - 1 > 65535` (spec/20 R49). SAFE. -/
  | portRangePastTop
  /-- Raised by the memory access of INS and OUTS: the segment's limit or rights forbid it (spec/41 R135). SAFE. -/
  | memoryFault
  /-- Raised by the permission check: no TSS is loaded, or the read passes its limit (spec/20 R69). SAFE. -/
  | tssReadFault
  /-- Raised by INS: the destination overlaps the program text (spec/20 R74). SAFE. -/
  | storeIntoText
  /-- Raised by POPF in virtual 8086 mode (spec/42 R146). SAFE. -/
  | popfInV86
  /-- Raised when `pc + len` passes the end of the code segment (spec/10 R15). SAFE. -/
  | pcPastTop
  deriving DecidableEq, Repr

/-- A segment register: the selector and the hidden part that spec/10 R22 names (base, limit, rights). `limit` is the
offset of the segment's last byte. -/
structure SegReg where
  selector : BitVec 16
  base     : Dword
  limit    : Dword
  readable : Bool
  writable : Bool
  deriving DecidableEq, Repr

/-- The current task's TSS as the permission check sees it (spec/10 R25). `limit` is the offset of its last byte
(spec/20 R66). -/
structure Tss where
  loaded : Bool
  base   : Dword
  limit  : Nat
  is386  : Bool
  deriving DecidableEq, Repr

/-- The program text: the linear addresses instructions are fetched from (spec/20 R74, log 15). -/
structure ProgramText where
  start : Dword
  len   : Nat
  deriving DecidableEq, Repr

/-- Everything the spec gives the machine; INVENTORY.md, '## State', lists each field with its rule. -/
structure State where
  eax : Dword
  ecx : Dword
  edx : Dword
  esi : Dword
  edi : Dword
  /-- EIP (spec/10 R15). -/
  pc : Dword
  /-- IOPL, DF, IF, VM and the other bits (spec/10 R16 to R19). -/
  eflags : Dword
  /-- CR0.PE (spec/10 R24). -/
  cr0Pe : Bool
  cs : SegReg
  ss : SegReg
  ds : SegReg
  es : SegReg
  fs : SegReg
  gs : SegReg
  tss : Tss
  params : Params
  mem : Memory
  text : ProgramText
  /-- The I/O event history, oldest first (spec/10 R30). -/
  history : List IoEvent
  /-- The model's own: answers that devices are to give to the next port reads (log 4). -/
  portAnswers : List Dword
  /-- The model's own: flags images that the next POPFs are to pop (log 8). -/
  popImages : List Dword
  /-- The model's own: how many POPF images have been drawn (log 8). -/
  popfDraws : Nat
  deriving DecidableEq, Repr

/-- A data segment register after reset: selector 0, base 0, limit FFFF (GK14). -/
def resetSegment : SegReg := ⟨0, 0, 0xFFFF, true, true⟩

/-- The machine right after reset: the spec's general-knowledge values (spec/10 R31, GK14; log 31) and, where it gives
none, the values of log 32. -/
def State.reset : State where
  eax := 0
  ecx := 0
  edx := 0x00000308
  esi := 0
  edi := 0
  pc := 0x0000FFF0
  eflags := 0x00000002
  cr0Pe := false
  cs := ⟨0xF000, 0xFFFF0000, 0xFFFF, true, true⟩
  ss := resetSegment
  ds := resetSegment
  es := resetSegment
  fs := resetSegment
  gs := resetSegment
  tss := ⟨false, 0, 0, false⟩
  params := ⟨.s16, .s16, false⟩
  mem := []
  text := ⟨0, 0⟩
  history := []
  portAnswers := []
  popImages := []
  popfDraws := 0

/-! ## Named updates -/

def State.setEax (s : State) (v : Dword) : State := { s with eax := v }
def State.setEcx (s : State) (v : Dword) : State := { s with ecx := v }
def State.setEsi (s : State) (v : Dword) : State := { s with esi := v }
def State.setEdi (s : State) (v : Dword) : State := { s with edi := v }
def State.setPc (s : State) (v : Dword) : State := { s with pc := v }
def State.setEflags (s : State) (v : Dword) : State := { s with eflags := v }
def State.setMem (s : State) (m : Memory) : State := { s with mem := m }
def State.setText (s : State) (t : ProgramText) : State := { s with text := t }

/-- Append one event to the history. -/
def State.logIo (s : State) (e : IoEvent) : State := { s with history := s.history ++ [e] }

/-- Use up one device answer, if one is waiting. -/
def State.dropAnswer (s : State) : State := { s with portAnswers := s.portAnswers.tail }

/-- Use up one POPF image, if one is waiting, and count the draw. -/
def State.dropImage (s : State) : State :=
  { s with popImages := s.popImages.tail, popfDraws := s.popfDraws + 1 }

/-- The segment register of a name. -/
def State.segReg (s : State) : Seg → SegReg
  | .es => s.es
  | .cs => s.cs
  | .ss => s.ss
  | .ds => s.ds
  | .fs => s.fs
  | .gs => s.gs

end Sys2Proof.Machine
end

