-- ==== Sys2Proof/Machine/Flags.lean ====
section
/-! DEFINITION. EFLAGS: its fields, their updates, and the mode and privilege level that EFLAGS and the CS selector hold.
Bit positions are the spec's general knowledge (GK6; log 6). -/

namespace Sys2Proof.Machine

/-- Real, protected (other than virtual 8086) or virtual 8086 mode (spec/10 R24). -/
inductive Mode where
  | real
  | prot
  | v86
  deriving DecidableEq, Repr

/-- EFLAGS.IF, bit 9 (spec/10 R18). -/
def ifFlag (s : State) : Bool := s.eflags.getLsbD 9

/-- EFLAGS.DF, bit 10 (spec/10 R17). -/
def dfFlag (s : State) : Bool := s.eflags.getLsbD 10

/-- EFLAGS.IOPL, bits 13:12 (spec/10 R16). -/
def iopl (s : State) : Nat := (s.eflags.extractLsb' 12 2).toNat

/-- EFLAGS.VM, bit 17 (spec/10 R19). -/
def vmFlag (s : State) : Bool := s.eflags.getLsbD 17

/-- The mode: real when CR0.PE = 0, else virtual 8086 or protected as VM says (spec/10 R24, GK15). -/
def mode (s : State) : Mode :=
  if s.cr0Pe then (if vmFlag s then .v86 else .prot) else .real

/-- CPL: the low two bits of the CS selector in protected mode, 3 in virtual 8086 mode, 0 in real mode (spec/10 R23). -/
def cpl (s : State) : Nat :=
  match mode s with
  | .real => 0
  | .prot => (s.cs.selector.extractLsb' 0 2).toNat
  | .v86 => 3

/-- The mask of IF. -/
def ifMask : Dword := 0x00000200

/-- The mask of DF. -/
def dfMask : Dword := 0x00000400

/-- The mask of IOPL. -/
def ioplMask : Dword := 0x00003000

/-- The bits of `new` where the mask is 1 and of `old` elsewhere. -/
def mergeBits (mask old new : Dword) : Dword := (old &&& ~~~mask) ||| (new &&& mask)

/-- Clear IF and nothing else (spec/42 R141). -/
def clearIf (s : State) : State := s.setEflags (mergeBits ifMask s.eflags 0)

/-- Set IF and nothing else (spec/42 R142). -/
def setIf (s : State) : State := s.setEflags (mergeBits ifMask s.eflags ifMask)

/-- POPF may load IOPL: in real mode or at CPL 0 (spec/42 R143). -/
def popfLoadsIopl (s : State) : Bool := mode s == .real || cpl s == 0

/-- POPF may load IF: in real mode or where CPL <= IOPL (spec/42 R144). -/
def popfLoadsIf (s : State) : Bool := mode s == .real || decide (cpl s ≤ iopl s)

/-- The bits of EFLAGS that a POPF writes: DF always (spec/42 R145), IOPL and IF where it may. -/
def popfMask (s : State) : Dword :=
  dfMask ||| (if popfLoadsIopl s then ioplMask else 0) ||| (if popfLoadsIf s then ifMask else 0)

/-- Load the flags from a popped image; what may not be altered stays, with no exception (spec/60 R153). -/
def loadFlags (img : Dword) (s : State) : State :=
  s.setEflags (mergeBits (popfMask s) s.eflags img)

end Sys2Proof.Machine
end

