-- ==== Sys2Proof/Machine/Operands.lean ====
section
/-! DEFINITION. The operands of the instructions: widths and sizes, the accumulator, DX, the string index registers and
the repeat count, each with its narrow name aliasing the low bits (GK4; log 5). -/

namespace Sys2Proof.Machine

/-- The number of bytes `n` of a transfer (spec/20 R45). -/
def widthBytes : Width → Nat
  | .byte => 1
  | .word => 2
  | .dword => 4

/-- The low `8n` bits, zero-extended to 32. -/
def truncTo (w : Width) (v : Dword) : Dword :=
  match w with
  | .byte => (v.setWidth 8).setWidth 32
  | .word => (v.setWidth 16).setWidth 32
  | .dword => v

/-- `r` with its low 8 bits replaced. -/
def withLow8 (r : Dword) (v : BitVec 8) : Dword := (r.extractLsb' 8 24 ++ v : BitVec 32)

/-- `r` with its low 16 bits replaced. -/
def withLow16 (r : Dword) (v : BitVec 16) : Dword := (r.extractLsb' 16 16 ++ v : BitVec 32)

/-! ## The accumulator: AL, AX, EAX by width (spec/10 R10) -/

/-- The value of AL, AX or EAX, zero-extended. -/
def readAcc (w : Width) (s : State) : Dword := truncTo w s.eax

/-- Write AL, AX or EAX from the low bits of `v`; the other bits of EAX stay. -/
def writeAcc (w : Width) (v : Dword) (s : State) : State :=
  match w with
  | .byte => s.setEax (withLow8 s.eax (v.setWidth 8))
  | .word => s.setEax (withLow16 s.eax (v.setWidth 16))
  | .dword => s.setEax v

/-! ## The port operand -/

/-- The immediate port: `zext_16(imm8)` (spec/30 R84). -/
def immPort (imm8 : Byte) : Port := imm8.setWidth 16

/-- DX, the low half of EDX (spec/10 R11). -/
def dxPort (s : State) : Port := s.edx.setWidth 16

/-! ## Sizes -/

/-- The address size of an instruction (spec/30 R83). -/
def addrSize (p : Prefixes) (s : State) : Size := effectiveSize s.params.defaultAddrSize p.addrSize

/-- The operand size of an instruction (spec/30 R82). -/
def opSize (p : Prefixes) (s : State) : Size := effectiveSize s.params.defaultOpSize p.opSize

/-! ## The string index and the repeat count -/

/-- The value of a register under an address size: its low 16 bits, or all of it (spec/10 R12, R13). -/
def sizedValue (z : Size) (r : Dword) : Dword :=
  match z with
  | .s16 => (r.setWidth 16).setWidth 32
  | .s32 => r

/-- The register stepped by the element size, up when DF = 0 and down when DF = 1, modulo 2^W; with W = 16 its upper half
stays (spec/41 R122). -/
def stepIndex (z : Size) (df : Bool) (w : Width) (r : Dword) : Dword :=
  match z, df with
  | .s16, false => withLow16 r (r.setWidth 16 + BitVec.ofNat 16 (widthBytes w))
  | .s16, true => withLow16 r (r.setWidth 16 - BitVec.ofNat 16 (widthBytes w))
  | .s32, false => r + BitVec.ofNat 32 (widthBytes w)
  | .s32, true => r - BitVec.ofNat 32 (widthBytes w)

/-- The count less one; with CX the upper half of ECX stays (spec/41 R131). -/
def decrement (z : Size) (r : Dword) : Dword :=
  match z with
  | .s16 => withLow16 r (r.setWidth 16 - 1)
  | .s32 => r - 1

/-- The repeat count `CNT`: CX or ECX (spec/10 R13). -/
def repeatCount (z : Size) (s : State) : Dword := sizedValue z s.ecx

/-- The segment that OUTS reads from: DS, or the one an override names (spec/41 R130). -/
def outsSegment (p : Prefixes) : Seg := p.seg.getD .ds

end Sys2Proof.Machine
end

