-- ==== Sys2Proof/Machine/Ops.lean ====
section
/-! DEFINITION. The shared operations: sequencing of outcomes, raising the general protection exception, port access, memory
access, the TSS, the permission checks, the program counter and the fetch of an instruction's bytes. -/

namespace Sys2Proof.Machine

/-- An outcome that carries a value. -/
abbrev Result (α : Type) := Host.Outcome α Fault Refusal

/-- Go on with `f` when `x` answers; stop as `x` stops otherwise: nothing after a raise or a refusal happens
(spec/00 section 5). -/
def andThen {α β : Type} (x : Result α) (f : α → Result β) : Result β :=
  match x with
  | .next a => f a
  | .fault r => .fault r
  | .refused r => .refused r

/-- TAKING THE EXCEPTION: `raise GP(0)`, vector 13, error code 0, the saved instruction pointer that of the instruction
(spec/60 R151). The spec describes no delivery: it is a terminal fault (R157), with nothing changed (R152). The spec names
no return from it (R158), so there is none. -/
def raiseGP {α : Type} (s : State) : Result α := .fault (.generalProtection 13 0 s.pc)

/-! ## Ports -/

/-- The ports `p .. p+n-1` lie in the I/O space (spec/20 R49). -/
def portRangeOk (p : Port) (w : Width) : Bool := decide (p.toNat + widthBytes w - 1 ≤ 0xFFFF)

/-- What the device answers: the first answer supplied, else the free value (spec/20 R48, log 4). -/
def deviceAnswer (s : State) (p : Port) (w : Width) : Dword :=
  truncTo w (s.portAnswers.headD (Config.portOracle s.history p w))

/-- `PortRead(p, n)` (spec/20 R48): the value, and the state with the event recorded. -/
def portRead (s : State) (p : Port) (w : Width) : Result (Dword × State) :=
  if portRangeOk p w then
    .next (deviceAnswer s p w, (s.logIo ⟨.read, p, w, deviceAnswer s p w⟩).dropAnswer)
  else .refused .portRangePastTop

/-- `PortWrite(p, n, v)` (spec/20 R48): the event is recorded; no other state changes. -/
def portWrite (s : State) (p : Port) (w : Width) (v : Dword) : Result State :=
  if portRangeOk p w then .next (s.logIo ⟨.write, p, w, truncTo w v⟩)
  else .refused .portRangePastTop

/-! ## Memory by segment and offset (spec/20 R54; the instance of the interface is log 11) -/

/-- The linear address of an offset in a segment. -/
def linear (g : SegReg) (off : Dword) : Dword := g.base + off

/-- The `n` bytes from the offset lie within the segment's limit; offsets do not wrap (log 12). -/
def withinLimit (g : SegReg) (off : Dword) (n : Nat) : Bool := decide (off.toNat + n - 1 ≤ g.limit.toNat)

/-- `a` is one of the bytes instructions are fetched from (spec/20 R74). -/
def inText (s : State) (a : Dword) : Bool := decide ((a - s.text.start).toNat < s.text.len)

/-- One of the `n` bytes from the linear address `a` is program text. -/
def overlapsText (s : State) (a : Dword) (n : Nat) : Bool :=
  (List.range n).any fun i => inText s (a + BitVec.ofNat 32 i)

/-- `MemRead(seg, off, n)`. -/
def memRead (s : State) (g : Seg) (off : Dword) (w : Width) : Result Dword :=
  if (s.segReg g).readable && withinLimit (s.segReg g) off (widthBytes w) then
    .next (readBytes s.mem (linear (s.segReg g) off) (widthBytes w))
  else .refused .memoryFault

/-- `MemWrite(seg, off, n, v)`; a store into the program text is refused (spec/20 R74). -/
def memWrite (s : State) (g : Seg) (off : Dword) (w : Width) (v : Dword) : Result State :=
  if (s.segReg g).writable && withinLimit (s.segReg g) off (widthBytes w) then
    if overlapsText s (linear (s.segReg g) off) (widthBytes w) then .refused .storeIntoText
    else .next (s.setMem (writeBytes s.mem (linear (s.segReg g) off) (widthBytes w) v))
  else .refused .memoryFault

/-! ## The TSS and the permission check -/

/-- The byte offset of the I/O map base field in the TSS (spec/10 R26, GK10). -/
def ioMapBaseOffset : Nat := 0x66

/-- `TssRead(off, n)`: the bytes of memory at TSS.base + off onward (spec/20 R69); it faults, and so refuses, where no TSS
is loaded or the bytes pass its limit (log 21). -/
def tssRead (s : State) (off n : Nat) : Result Dword :=
  if s.tss.loaded && decide (off + n - 1 ≤ s.tss.limit) then
    .next (readBytes s.mem (s.tss.base + BitVec.ofNat 32 off) n)
  else .refused .tssReadFault

/-- The loop of R68: the bits of the ports `a, a+1, …`, `k` of them, in the map that begins at `base`. -/
def testPorts (s : State) (base : Nat) : Nat → Nat → Result Unit
  | 0, _ => .next ()
  | k + 1, a =>
    if s.tss.limit < base + a / 8 then raiseGP s
    else andThen (tssRead s (base + a / 8) 1) fun b =>
      if b.getLsbD (a % 8) then raiseGP s else testPorts s base k (a + 1)

/-- The part of R68 in which the map decides: an 80286 TSS has none (R69), nor has one whose base is at or past the limit
(R67); else every port of the transfer is tested (R65, R66). -/
def mapCheck (s : State) (p n : Nat) : Result Unit :=
  if !s.tss.loaded then .refused .tssReadFault
  else if !s.tss.is386 then raiseGP s
  else andThen (tssRead s ioMapBaseOffset 2) fun base =>
    if s.tss.limit ≤ base.toNat then raiseGP s
    else if s.params.iopbExtraByte && decide (s.tss.limit < base.toNat + p / 8 + 1) then raiseGP s
    else testPorts s base.toNat n p

/-- `IOPermCheck(p, n)` (spec/20 R68). -/
def ioPermCheck (s : State) (p : Port) (w : Width) : Result Unit :=
  if portRangeOk p w then
    match mode s with
    | .real => .next ()
    | .prot => if cpl s ≤ iopl s then .next () else mapCheck s p.toNat (widthBytes w)
    | .v86 => mapCheck s p.toNat (widthBytes w)
  else .refused .portRangePastTop

/-- `SensitiveCheck()` of CLI and STI (spec/42 R140). -/
def sensitiveCheck (s : State) : Result Unit :=
  if mode s = .real then .next ()
  else if cpl s ≤ iopl s then .next ()
  else raiseGP s

/-! ## The program counter and the fetch -/

/-- `pc <- pc + len`, refused where that passes the code segment's limit (spec/10 R15); the limit has 32 bits, so
0xFFFFFFFF is never passed (log 16). -/
def advancePc (len : Nat) (s : State) : Result State :=
  if s.pc.toNat + len ≤ s.cs.limit.toNat then .next (s.setPc (s.pc + BitVec.ofNat 32 len))
  else .refused .pcPastTop

/-- The bytes of the program text from an offset in the code segment on, at most `k` of them, up to the first one that is
past the segment's limit or outside the program text. -/
def fetchBytes (s : State) : Nat → Nat → List Byte
  | 0, _ => []
  | k + 1, off =>
    if decide (off ≤ s.cs.limit.toNat) && inText s (linear s.cs (BitVec.ofNat 32 off)) then
      readByte s.mem (linear s.cs (BitVec.ofNat 32 off)).toNat :: fetchBytes s k (off + 1)
    else []

/-- The bytes at pc that the decoder sees. -/
def fetch (s : State) : List Byte := fetchBytes s fetchWindow s.pc.toNat

end Sys2Proof.Machine
end

