-- ==== Sys2Proof/Machine/BlockIo.lean ====
section
/-! DEFINITION. The block I/O instructions INS and OUTS and the REP prefix (spec/41). -/

namespace Sys2Proof.Machine

/-- Steps (1) to (4) of R135 for INS: check, port read, store at ES:(E)DI, step (E)DI. A segment override does not change
ES (R126). -/
def inputElement (w : Width) (p : Prefixes) (s : State) : Result State :=
  andThen (ioPermCheck s (dxPort s) w) fun _ =>
  andThen (portRead s (dxPort s) w) fun r =>
  andThen (memWrite r.2 .es (sizedValue (addrSize p s) s.edi) w r.1) fun t =>
  .next (t.setEdi (stepIndex (addrSize p s) (dfFlag s) w s.edi))

/-- Steps (1) to (4) of R135 for OUTS: check, load from DS:(E)SI or the overriding segment (R130), port write, step
(E)SI. -/
def outputElement (w : Width) (p : Prefixes) (s : State) : Result State :=
  andThen (ioPermCheck s (dxPort s) w) fun _ =>
  andThen (memRead s (outsSegment p) (sizedValue (addrSize p s) s.esi) w) fun v =>
  andThen (portWrite s (dxPort s) w v) fun t =>
  .next (t.setEsi (stepIndex (addrSize p s) (dfFlag s) w s.esi))

/-- One element transfer of a string instruction. -/
def transferElement (x : StringOp) (p : Prefixes) (s : State) : Result State :=
  match x with
  | .insb => inputElement .byte p s
  | .insw => inputElement .word p s
  | .insd => inputElement .dword p s
  | .outsb => outputElement .byte p s
  | .outsw => outputElement .word p s
  | .outsd => outputElement .dword p s

/-- `INSB` (R123) -/
def execInsb (p : Prefixes) (s : State) : Result State :=
  andThen (transferElement .insb p s) (advancePc (lengthOp p))

/-- `INSW` (R124) -/
def execInsw (p : Prefixes) (s : State) : Result State :=
  andThen (transferElement .insw p s) (advancePc (lengthOp p))

/-- `INSD` (R125) -/
def execInsd (p : Prefixes) (s : State) : Result State :=
  andThen (transferElement .insd p s) (advancePc (lengthOp p))

/-- `OUTSB` (R127) -/
def execOutsb (p : Prefixes) (s : State) : Result State :=
  andThen (transferElement .outsb p s) (advancePc (lengthOp p))

/-- `OUTSW` (R128) -/
def execOutsw (p : Prefixes) (s : State) : Result State :=
  andThen (transferElement .outsw p s) (advancePc (lengthOp p))

/-- `OUTSD` (R129) -/
def execOutsd (p : Prefixes) (s : State) : Result State :=
  andThen (transferElement .outsd p s) (advancePc (lengthOp p))

/-- `REP` (R131): one iteration. With a count of 0 only pc advances (R132); else one element, the count less one, and pc
advances when the count is then 0 and stays otherwise (R133). -/
def execRep (p : Prefixes) (x : StringOp) (s : State) : Result State :=
  if repeatCount (addrSize p s) s = 0 then advancePc (lengthOpPlusOne p) s
  else andThen (transferElement x p s) fun t =>
    let u := t.setEcx (decrement (addrSize p s) s.ecx)
    if repeatCount (addrSize p s) u = 0 then advancePc (lengthOpPlusOne p) u else .next u

end Sys2Proof.Machine
end

