-- ==== Sys2Proof/Machine/FlagControl.lean ====
section
/-! DEFINITION. The IOPL-sensitive flag instructions CLI, STI and POPF (spec/42). -/

namespace Sys2Proof.Machine

/-- `CLI` (R141) -/
def execCli (p : Prefixes) (s : State) : Result State :=
  andThen (sensitiveCheck s) fun _ => advancePc (lengthOp p) (clearIf s)

/-- `STI` (R142) -/
def execSti (p : Prefixes) (s : State) : Result State :=
  andThen (sensitiveCheck s) fun _ => advancePc (lengthOp p) (setIf s)

/-- The image that POPF pops: the first image supplied, else the free value; 16 bits of it with a 16-bit operand size
(spec/42 R145, spec/93 U21, log 8). -/
def poppedImage (z : Size) (s : State) : Dword :=
  sizedValue z (s.popImages.headD (Config.popfImage s.popfDraws))

/-- `POPF`, `POPFD` (R143 to R145): IOPL and IF where they may be altered, and DF; refused in virtual 8086 mode (R146). -/
def execPopf (p : Prefixes) (s : State) : Result State :=
  if mode s = .v86 then .refused .popfInV86
  else advancePc (lengthOp p) (loadFlags (poppedImage (opSize p s) s) s.dropImage)

end Sys2Proof.Machine
end

