-- ==== Sys2Proof/Machine/RegisterIo.lean ====
section
/-! DEFINITION. The register I/O instructions IN and OUT (spec/40). -/

namespace Sys2Proof.Machine

/-- The order of effects of IN (spec/40 R113): check, one port read, the accumulator, pc. -/
def inputAcc (w : Width) (port : Port) (len : Nat) (s : State) : Result State :=
  andThen (ioPermCheck s port w) fun _ =>
  andThen (portRead s port w) fun r =>
  advancePc len (writeAcc w r.1 r.2)

/-- The order of effects of OUT (spec/40 R113): check, one port write, pc. -/
def outputAcc (w : Width) (port : Port) (len : Nat) (s : State) : Result State :=
  andThen (ioPermCheck s port w) fun _ =>
  andThen (portWrite s port w (readAcc w s)) (advancePc len)

/-- `IN AL, imm8` (R101) -/
def execInAlImm8 (p : Prefixes) (imm8 : Byte) (s : State) : Result State :=
  inputAcc .byte (immPort imm8) (lengthOpPlusOne p) s

/-- `IN AX, imm8` (R102) -/
def execInAxImm8 (p : Prefixes) (imm8 : Byte) (s : State) : Result State :=
  inputAcc .word (immPort imm8) (lengthOpPlusOne p) s

/-- `IN EAX, imm8` (R103) -/
def execInEaxImm8 (p : Prefixes) (imm8 : Byte) (s : State) : Result State :=
  inputAcc .dword (immPort imm8) (lengthOpPlusOne p) s

/-- `IN AL, DX` (R104) -/
def execInAlDx (p : Prefixes) (s : State) : Result State :=
  inputAcc .byte (dxPort s) (lengthOp p) s

/-- `IN AX, DX` (R105) -/
def execInAxDx (p : Prefixes) (s : State) : Result State :=
  inputAcc .word (dxPort s) (lengthOp p) s

/-- `IN EAX, DX` (R106) -/
def execInEaxDx (p : Prefixes) (s : State) : Result State :=
  inputAcc .dword (dxPort s) (lengthOp p) s

/-- `OUT imm8, AL` (R107) -/
def execOutImm8Al (p : Prefixes) (imm8 : Byte) (s : State) : Result State :=
  outputAcc .byte (immPort imm8) (lengthOpPlusOne p) s

/-- `OUT imm8, AX` (R108) -/
def execOutImm8Ax (p : Prefixes) (imm8 : Byte) (s : State) : Result State :=
  outputAcc .word (immPort imm8) (lengthOpPlusOne p) s

/-- `OUT imm8, EAX` (R109) -/
def execOutImm8Eax (p : Prefixes) (imm8 : Byte) (s : State) : Result State :=
  outputAcc .dword (immPort imm8) (lengthOpPlusOne p) s

/-- `OUT DX, AL` (R110) -/
def execOutDxAl (p : Prefixes) (s : State) : Result State :=
  outputAcc .byte (dxPort s) (lengthOp p) s

/-- `OUT DX, AX` (R111) -/
def execOutDxAx (p : Prefixes) (s : State) : Result State :=
  outputAcc .word (dxPort s) (lengthOp p) s

/-- `OUT DX, EAX` (R112) -/
def execOutDxEax (p : Prefixes) (s : State) : Result State :=
  outputAcc .dword (dxPort s) (lengthOp p) s

end Sys2Proof.Machine
end

