-- ==== Sys2Proof/Machine/Dispatch.lean ====
section
/-! DEFINITION. One arm per instruction. -/

namespace Sys2Proof.Machine

def exec (i : Instr) (s : State) : Host.Outcome State Fault Refusal :=
  match i with
  | .inAlImm8 p imm8 => Sys2Proof.Machine.execInAlImm8 p imm8 s
  | .inAxImm8 p imm8 => Sys2Proof.Machine.execInAxImm8 p imm8 s
  | .inEaxImm8 p imm8 => Sys2Proof.Machine.execInEaxImm8 p imm8 s
  | .inAlDx p => Sys2Proof.Machine.execInAlDx p s
  | .inAxDx p => Sys2Proof.Machine.execInAxDx p s
  | .inEaxDx p => Sys2Proof.Machine.execInEaxDx p s
  | .outImm8Al p imm8 => Sys2Proof.Machine.execOutImm8Al p imm8 s
  | .outImm8Ax p imm8 => Sys2Proof.Machine.execOutImm8Ax p imm8 s
  | .outImm8Eax p imm8 => Sys2Proof.Machine.execOutImm8Eax p imm8 s
  | .outDxAl p => Sys2Proof.Machine.execOutDxAl p s
  | .outDxAx p => Sys2Proof.Machine.execOutDxAx p s
  | .outDxEax p => Sys2Proof.Machine.execOutDxEax p s
  | .insb p => Sys2Proof.Machine.execInsb p s
  | .insw p => Sys2Proof.Machine.execInsw p s
  | .insd p => Sys2Proof.Machine.execInsd p s
  | .outsb p => Sys2Proof.Machine.execOutsb p s
  | .outsw p => Sys2Proof.Machine.execOutsw p s
  | .outsd p => Sys2Proof.Machine.execOutsd p s
  | .rep p x => Sys2Proof.Machine.execRep p x s
  | .cli p => Sys2Proof.Machine.execCli p s
  | .sti p => Sys2Proof.Machine.execSti p s
  | .popf p => Sys2Proof.Machine.execPopf p s

end Sys2Proof.Machine
end

