-- ==== Sys2Proof/Machine/Step.lean ====
section
/-! DEFINITION. One step of the machine, and the state with one instruction placed where the step fetches. -/

namespace Sys2Proof.Machine

/-- Fetch, decode under DefaultOpSize, execute; bytes that are no instruction of the spec are refused by name
(spec/30 R88). A REP takes one step per iteration (spec/41 R133). -/
def step (s : State) : Host.Outcome State Fault Refusal :=
  match decode s.params.defaultOpSize (fetch s) with
  | .ok i _ => exec i s
  | .error e => .refused (.undecodable e)

/-- `s` with the bytes of a word of the opcode table loaded at pc and declared the program text, so that the next step
fetches them (log 33). -/
def State.withFetchWord (s : State) (nbits w : Nat) : State :=
  let a := linear s.cs s.pc
  (s.setMem (storeList s.mem a (tableBytes nbits w))).setText ⟨a, fetchWindow⟩

end Sys2Proof.Machine
end

