-- ==== Sys2Proof/Safety.lean ====
section
/-! DEFINITION. The terms in which claims about the machine are stated, written from the rules and not from the meanings:
who may do what, what an I/O instruction transfers, when an instruction is ready to run, and the invariant of a run. -/

namespace Sys2Proof.Safety

open Sys2Proof.Machine

/-! ## Encoding -/

/-- The kinds of prefix bytes that the model admits, each with its bytes: operand size, address size, REP, segment override
(spec/30 R81). -/
def prefixKinds : List (List Byte) := [[0x66], [0x67], [0xF3], [0x26, 0x2E, 0x36, 0x3E, 0x64, 0x65]]

/-- Two bytes are prefixes of one kind. -/
def SameKind (b c : Byte) : Prop := ∃ g ∈ prefixKinds, b ∈ g ∧ c ∈ g

/-- A list of prefix bytes that R81 admits before an opcode: at most one of each kind, in any order. -/
def AdmittedPrefixes (ps : List Byte) : Prop :=
  (∀ b ∈ ps, SameKind b b) ∧ ps.Pairwise fun b c => ¬ SameKind b c

/-- The opcodes that are no string instruction and take no byte after them, and those that take an immediate byte
(spec/30 R85). -/
def plainOpcodes : List Byte := [0xEC, 0xED, 0xEE, 0xEF, 0xFA, 0xFB, 0x9D]
def immediateOpcodes : List Byte := [0xE4, 0xE5, 0xE6, 0xE7]

/-- The opcodes of the string instructions (spec/30 R85). -/
def stringOpcodes : List Byte := [0x6C, 0x6D, 0x6E, 0x6F]

/-- A byte that is neither a prefix byte of R81 nor an opcode of R85. -/
def ForeignByte (b : Byte) : Prop :=
  ¬ SameKind b b ∧ b ≠ 0xF0 ∧ b ≠ 0xF2 ∧ b ∉ plainOpcodes ∧ b ∉ immediateOpcodes ∧ b ∉ stringOpcodes

/-! ## Protection -/

/-- The ports of the transfer exist: none is past port 65535 (spec/20 R49). -/
def RangeOk (p : Port) (w : Width) : Prop := p.toNat + widthBytes w ≤ 65536

/-- The I/O permission bit map decides: protected mode with CPL > IOPL, or virtual 8086 mode (spec/20 R61, R62). -/
def MapConsulted (s : State) : Prop := (mode s = .prot ∧ iopl s < cpl s) ∨ mode s = .v86

/-- A byte of the TSS, at an offset from its base. -/
def tssByte (s : State) (off : Nat) : Byte := readByte s.mem (s.tss.base + BitVec.ofNat 32 off).toNat

/-- The value of the I/O map base field: the word at TSS offset 66h (spec/10 R26). -/
def mapBase (s : State) : Nat := (tssByte s 0x66).toNat + 256 * (tssByte s 0x67).toNat

/-- The map has a 0 bit for the 8-bit port `a` (spec/20 R64, R66). -/
def PortFree (s : State) (a : Nat) : Prop :=
  mapBase s + a / 8 ≤ s.tss.limit ∧ (tssByte s (mapBase s + a / 8)).getLsbD (a % 8) = false

/-- A TSS is loaded and, where it is of the 80386 format, its map base field lies within its limit: the TSS reads of the
check do not fault (log 21). -/
def TssReadable (s : State) : Prop :=
  s.tss.loaded = true ∧ (s.tss.is386 = true → 0x67 ≤ s.tss.limit)

/-- The map of the current TSS permits the transfer (spec/20 R65 to R68). -/
def MapPermits (s : State) (p : Port) (w : Width) : Prop :=
  s.tss.is386 = true ∧ mapBase s < s.tss.limit ∧
  (s.params.iopbExtraByte = true → mapBase s + p.toNat / 8 + 1 ≤ s.tss.limit) ∧
  ∀ i < widthBytes w, PortFree s (p.toNat + i)

/-- The procedure may make the transfer (spec/60 R161). -/
def IoPermitted (s : State) (p : Port) (w : Width) : Prop :=
  mode s = .real ∨ (mode s = .prot ∧ cpl s ≤ iopl s) ∨ (TssReadable s ∧ MapPermits s p w)

/-- The procedure may use CLI and STI (spec/60 R161). -/
def SensitivePermitted (s : State) : Prop := mode s = .real ∨ cpl s ≤ iopl s

/-- The fault GP(0) at the current instruction (spec/60 R151). -/
def gpFault (s : State) : Fault := .generalProtection 13 0 s.pc

/-! ## What an instruction transfers -/

/-- The value of an index or count register under an address size: its low half with 16 (spec/10 R12, R13). -/
def offsetOf (z : Size) (r : Dword) : Dword :=
  match z with
  | .s16 => r &&& 0x0000FFFF
  | .s32 => r

/-- The direction and width of a string instruction. -/
def stringShape : StringOp → IoDir × Width
  | .insb => (.read, .byte)
  | .insw => (.read, .word)
  | .insd => (.read, .dword)
  | .outsb => (.write, .byte)
  | .outsw => (.write, .word)
  | .outsd => (.write, .dword)

/-- The one I/O transfer an instruction makes in a state: direction, port and width; none for CLI, STI and POPF and for a
REP whose count is 0 (spec/20 R50, spec/41 R132). -/
def ioTransfer (i : Instr) (s : State) : Option (IoDir × Port × Width) :=
  match i with
  | .inAlImm8 _ b => some (.read, b.setWidth 16, .byte)
  | .inAxImm8 _ b => some (.read, b.setWidth 16, .word)
  | .inEaxImm8 _ b => some (.read, b.setWidth 16, .dword)
  | .inAlDx _ => some (.read, s.edx.setWidth 16, .byte)
  | .inAxDx _ => some (.read, s.edx.setWidth 16, .word)
  | .inEaxDx _ => some (.read, s.edx.setWidth 16, .dword)
  | .outImm8Al _ b => some (.write, b.setWidth 16, .byte)
  | .outImm8Ax _ b => some (.write, b.setWidth 16, .word)
  | .outImm8Eax _ b => some (.write, b.setWidth 16, .dword)
  | .outDxAl _ => some (.write, s.edx.setWidth 16, .byte)
  | .outDxAx _ => some (.write, s.edx.setWidth 16, .word)
  | .outDxEax _ => some (.write, s.edx.setWidth 16, .dword)
  | .insb _ => some (.read, s.edx.setWidth 16, .byte)
  | .insw _ => some (.read, s.edx.setWidth 16, .word)
  | .insd _ => some (.read, s.edx.setWidth 16, .dword)
  | .outsb _ => some (.write, s.edx.setWidth 16, .byte)
  | .outsw _ => some (.write, s.edx.setWidth 16, .word)
  | .outsd _ => some (.write, s.edx.setWidth 16, .dword)
  | .rep p x =>
    if offsetOf (addrSize p s) s.ecx = 0 then none
    else some ((stringShape x).1, s.edx.setWidth 16, (stringShape x).2)
  | .cli _ => none
  | .sti _ => none
  | .popf _ => none

/-- The instructions that can store to memory: INS, with or without REP (spec/20 R54). -/
def storesMemory : Instr → Bool
  | .insb _ => true
  | .insw _ => true
  | .insd _ => true
  | .rep _ x => (stringShape x).1 == .read
  | .inAlImm8 _ _ => false
  | .inAxImm8 _ _ => false
  | .inEaxImm8 _ _ => false
  | .inAlDx _ => false
  | .inAxDx _ => false
  | .inEaxDx _ => false
  | .outImm8Al _ _ => false
  | .outImm8Ax _ _ => false
  | .outImm8Eax _ _ => false
  | .outDxAl _ => false
  | .outDxAx _ => false
  | .outDxEax _ => false
  | .outsb _ => false
  | .outsw _ => false
  | .outsd _ => false
  | .cli _ => false
  | .sti _ => false
  | .popf _ => false

/-! ## Readiness: hypotheses on the state and the operands alone -/

/-- `pc + len` stays within the code segment (spec/10 R15). -/
def PcFits (len : Nat) (s : State) : Prop := s.pc.toNat + len ≤ s.cs.limit.toNat

/-- An index register moved by `k` bytes, up when DF = 0 and down when DF = 1, modulo 2^16 or 2^32 (spec/41 R122). -/
def indexMoved (z : Size) (df : Bool) (k : Nat) (r : Dword) : Dword :=
  let moved := if df then r - BitVec.ofNat 32 k else r + BitVec.ofNat 32 k
  match z with
  | .s16 => (r &&& 0xFFFF0000) ||| (moved &&& 0x0000FFFF)
  | .s32 => moved

/-- The `n` bytes from the offset lie within the segment. -/
def OffsetOk (g : SegReg) (off : Dword) (n : Nat) : Prop := off.toNat + n ≤ g.limit.toNat + 1

/-- The linear address of byte `i` of an element at an offset of a segment (spec/20 R55). -/
def elementByte (g : SegReg) (off : Dword) (i : Nat) : Dword := g.base + off + BitVec.ofNat 32 i

/-- The destination of an INS of width `w` takes the store: writable, within the limit, outside the program text. -/
def DestinationOk (w : Width) (p : Prefixes) (s : State) : Prop :=
  s.es.writable = true ∧ OffsetOk s.es (offsetOf (addrSize p s) s.edi) (widthBytes w) ∧
  ∀ i < widthBytes w, inText s (elementByte s.es (offsetOf (addrSize p s) s.edi) i) = false

/-- The source of an OUTS of width `w` at the offset `off` can be read. -/
def SourceOk (w : Width) (p : Prefixes) (off : Dword) (s : State) : Prop :=
  (s.segReg (outsSegment p)).readable = true ∧ OffsetOk (s.segReg (outsSegment p)) off (widthBytes w)

/-- A string instruction can transfer its element. -/
def StringReady (x : StringOp) (p : Prefixes) (s : State) : Prop :=
  RangeOk (s.edx.setWidth 16) (stringShape x).2 ∧ IoPermitted s (s.edx.setWidth 16) (stringShape x).2 ∧
  match (stringShape x).1 with
  | .read => DestinationOk (stringShape x).2 p s
  | .write => SourceOk (stringShape x).2 p (offsetOf (addrSize p s) s.esi) s

/-! ## Values -/

/-- The low `8n` bits of a value. -/
def lowBits (w : Width) (v : Dword) : Dword :=
  match w with
  | .byte => v &&& 0x000000FF
  | .word => v &&& 0x0000FFFF
  | .dword => v

/-- What a port read returns: the low `8n` bits of the first device answer supplied, else of the free value `PortOracle`
(spec/20 R48). -/
def answerOf (s : State) (p : Port) (w : Width) : Dword :=
  lowBits w (s.portAnswers.headD (Config.portOracle s.history p w))

/-- EAX after a value of width `w` went to AL, AX or EAX (spec/10 R10). -/
def eaxAfter (w : Width) (eax v : Dword) : Dword :=
  match w with
  | .byte => (eax &&& 0xFFFFFF00) ||| v
  | .word => (eax &&& 0xFFFF0000) ||| v
  | .dword => v

/-- The element of width `w` at a linear address, little-endian (spec/20 R55). -/
def elementValue (m : Memory) (a : Dword) (w : Width) : Dword :=
  match w with
  | .byte => (readByte m a.toNat).setWidth 32
  | .word => (readByte m (a + 1).toNat ++ readByte m a.toNat : BitVec 16).setWidth 32
  | .dword =>
    (readByte m (a + 3).toNat ++ readByte m (a + 2).toNat ++ readByte m (a + 1).toNat ++ readByte m a.toNat : BitVec 32)

/-- ECX after a REP has run to a count of 0. -/
def ecxDone (z : Size) (ecx : Dword) : Dword :=
  match z with
  | .s16 => ecx &&& 0xFFFF0000
  | .s32 => 0

/-- ECX with its count one less (spec/41 R131: with CX the upper half stays). -/
def ecxLess (z : Size) (ecx : Dword) : Dword :=
  match z with
  | .s16 => (ecx &&& 0xFFFF0000) ||| ((ecx - 1) &&& 0x0000FFFF)
  | .s32 => ecx - 1

/-! ## Runs -/

/-- The same instruction executed `k` times in a row. -/
def execTimes (i : Instr) : Nat → State → Result State
  | 0, s => .next s
  | k + 1, s => andThen (exec i s) (execTimes i k)

/-- An event that can have happened: its ports exist and its value has its width. -/
def EventOk (e : IoEvent) : Prop := RangeOk e.port e.width ∧ e.value.toNat < 2 ^ (8 * widthBytes e.width)

/-- The invariant of a run: memory in canonical form, a history of events that can have happened, pc within the code
segment. -/
def Inv (s : State) : Prop :=
  s.mem.wf ∧ (∀ e ∈ s.history, EventOk e) ∧ s.pc.toNat ≤ s.cs.limit.toNat

/-- The state with EDX[31:16] replaced. -/
def withEdxHigh (h : BitVec 16) (s : State) : State := { s with edx := (h ++ s.edx.setWidth 16 : BitVec 32) }

/-- An outcome with the state of a next state mapped. -/
def mapNext (f : State → State) (o : Result State) : Result State :=
  match o with
  | .next t => .next (f t)
  | .fault r => .fault r
  | .refused r => .refused r

end Sys2Proof.Safety
end

