-- ==== Sys2Proof/Certificates/Slice0/Obligations.lean ====
section
/-! DEFINITION. The statements for the provers. `GK<n>` and `D<n>` are rows of spec/93 and spec/92: what the spec supplies
or decides itself. `log <n>` is notes/assumptions/<n>.md. -/

open Sys2Proof Sys2Proof.Machine Sys2Proof.Safety

/-! ## Encoding -/

/-- Decoding the encoding of a well-formed instruction gives it back, with the bytes after it (spec/30 R80 to R86; the byte
values are GK1 and GK2, log 2). -/
def Obligations.DecodeOfEncode : Prop :=
  ∀ (d : Size) (i : Instr) (rest : List Byte), wellFormed d i = true → decode d (encode i ++ rest) = .ok i rest

/-- What the decoder answers is well-formed, and the bytes it used are as many as the instruction's length, at most 7
(spec/30 R82, R86, R87). -/
def Obligations.DecodedIsWellFormed : Prop :=
  ∀ (d : Size) (bytes rest : List Byte) (i : Instr), decode d bytes = .ok i rest →
    wellFormed d i = true ∧ 1 ≤ instrLength i ∧ instrLength i ≤ 7 ∧
    ∃ used, bytes = used ++ rest ∧ used.length = instrLength i

/-- Prefixes of different kinds may stand in any order (spec/30 R81). -/
def Obligations.PrefixOrderIsFree : Prop :=
  ∀ (d : Size) (ps qs tail : List Byte), ps.Perm qs → AdmittedPrefixes ps → decode d (ps ++ tail) = decode d (qs ++ tail)

/-- After any admitted list of prefix bytes, the empty one among them: LOCK and REPNE are refused, a second prefix of a kind
that the list holds is refused, REP anywhere in the list is refused before an opcode that is not INS or OUTS, a byte that is
no prefix and no opcode is refused, and so are bytes that end there or before an immediate (spec/30 R81, R86, R88 to R90; D1,
D29, log 30). -/
def Obligations.ForeignBytesRefused : Prop :=
  ∀ (d : Size) (ps rest : List Byte), AdmittedPrefixes ps →
    decode d (ps ++ 0xF0 :: rest) = .error .lock ∧
    decode d (ps ++ 0xF2 :: rest) = .error .repne ∧
    (∀ b ∈ ps, ∀ c, SameKind b c → decode d (ps ++ c :: rest) = .error .repeatedPrefix) ∧
    (0xF3 ∈ ps →
      (∀ op ∈ plainOpcodes, decode d (ps ++ op :: rest) = .error .repBeforeNonString) ∧
      ∀ op ∈ immediateOpcodes, ∀ imm, decode d (ps ++ op :: imm :: rest) = .error .repBeforeNonString) ∧
    (∀ op, ForeignByte op → decode d (ps ++ op :: rest) = .error (.foreignOpcode op)) ∧
    decode d ps = .error .endOfBytes ∧
    ∀ op ∈ immediateOpcodes, decode d (ps ++ [op]) = .error .endOfBytes

/-- Words written out from spec/30 R80, R81 and R85 decode to the instructions they stand for. -/
def Obligations.SpecEncodingsDecode : Prop :=
  decode .s32 [0b11100100, 0x60] = .ok (.inAlImm8 ⟨false, false, none⟩ 0x60) [] ∧
  decode .s32 [0b01100110, 0b11100101, 0x40] = .ok (.inAxImm8 ⟨true, false, none⟩ 0x40) [] ∧
  decode .s16 [0b01100110, 0b11101111] = .ok (.outDxEax ⟨true, false, none⟩) [] ∧
  decode .s16 [0b01101101] = .ok (.insw ⟨false, false, none⟩) [] ∧
  decode .s32 [0b00100110, 0b01101110] = .ok (.outsb ⟨false, false, some .es⟩) [] ∧
  decode .s32 [0b11110011, 0b01100111, 0b01101100] = .ok (.rep ⟨false, true, none⟩ .insb) [] ∧
  decode .s16 [0b11111010] = .ok (.cli ⟨false, false, none⟩) [] ∧
  decode .s16 [0b10011101] = .ok (.popf ⟨false, false, none⟩) []

/-! ## The machine: reset, step, invariant -/

/-- The invariant holds after reset. -/
def Obligations.ResetMeetsInvariant : Prop := Inv State.reset

/-- After reset the machine is in real mode with IOPL, IF and DF 0, no TSS, an empty history, and pc at 0000FFF0 in a code
segment based at FFFF0000 (spec/10 R31 and spec/70 R171, whose values are GK14, not the source's; log 31). -/
def Obligations.StateAfterReset : Prop :=
  mode State.reset = .real ∧ cpl State.reset = 0 ∧ iopl State.reset = 0 ∧ ifFlag State.reset = false ∧
  dfFlag State.reset = false ∧ vmFlag State.reset = false ∧ State.reset.eflags = 0x00000002 ∧
  State.reset.pc = 0x0000FFF0 ∧ State.reset.cs.selector = 0xF000 ∧ State.reset.cs.base = 0xFFFF0000 ∧
  State.reset.eax = 0 ∧ State.reset.tss.loaded = false ∧ State.reset.history = []

/-- A step executes the instruction that the bytes at pc decode to, and is refused by name where they decode to none. -/
def Obligations.StepRunsDecodedInstruction : Prop :=
  ∀ s : State,
    (∀ i rest, decode s.params.defaultOpSize (fetch s) = .ok i rest → step s = exec i s) ∧
    ∀ e, decode s.params.defaultOpSize (fetch s) = .error e → step s = .refused (.undecodable e)

/-- Where the bytes of memory from pc on are the encoding of a well-formed instruction, inside the program text and the
code segment, a step executes it. -/
def Obligations.StepRunsInstructionInMemory : Prop :=
  ∀ (s : State) (i : Instr), wellFormed s.params.defaultOpSize i = true →
    (∀ k (h : k < (encode i).length), s.pc.toNat + k ≤ s.cs.limit.toNat ∧
      inText s (s.cs.base + BitVec.ofNat 32 (s.pc.toNat + k)) = true ∧
      readByte s.mem (s.cs.base + BitVec.ofNat 32 (s.pc.toNat + k)).toNat = (encode i)[k]) →
    step s = exec i s

/-- Every step keeps the invariant: memory in canonical form, every event in the history possible, pc in the segment. -/
def Obligations.StepKeepsInvariant : Prop :=
  ∀ s t : State, Inv s → step s = .next t → Inv t

/-- No instruction changes EDX, CR0.PE, VM, the mode, CPL, a segment register, the TSS registers, the parameters or the
program text's place (spec/10 R11, R22 to R25). -/
def Obligations.SystemStateUnchanged : Prop :=
  ∀ (i : Instr) (s t : State), exec i s = .next t →
    t.edx = s.edx ∧ t.cr0Pe = s.cr0Pe ∧ vmFlag t = vmFlag s ∧ mode t = mode s ∧ cpl t = cpl s ∧
    (∀ g, t.segReg g = s.segReg g) ∧ t.tss = s.tss ∧ t.params = s.params ∧ t.text = s.text

/-- An instruction that completes moves pc by its length, but for a REP whose count is not used up, which leaves pc
(spec/10 R15, spec/41 R131, R133; the rule is GK18 and GK5). -/
def Obligations.PcMovesByLength : Prop :=
  ∀ (i : Instr) (s t : State), exec i s = .next t →
    (t.pc.toNat = s.pc.toNat + instrLength i ∧ PcFits (instrLength i) s ∧
      ∀ p x, i = .rep p x → offsetOf (addrSize p s) t.ecx = 0) ∨
    (t.pc = s.pc ∧ ∃ p x, i = .rep p x ∧ offsetOf (addrSize p s) t.ecx ≠ 0)

/-- Every completed instruction adds exactly the event of its one transfer to the history, and nothing if it makes none
(spec/20 R48, R50, R56). -/
def Obligations.HistoryGrowsByTheTransfer : Prop :=
  ∀ (i : Instr) (s t : State), exec i s = .next t →
    match ioTransfer i s with
    | none => t.history = s.history
    | some (dir, port, w) => RangeOk port w ∧ ∃ v, EventOk ⟨dir, port, w, v⟩ ∧ t.history = s.history ++ [⟨dir, port, w, v⟩]

/-- Only INS writes memory, and no instruction changes a byte of the program text (spec/20 R50, R74). -/
def Obligations.MemoryWritersAndText : Prop :=
  ∀ (i : Instr) (s t : State), exec i s = .next t →
    (storesMemory i = false → t.mem = s.mem) ∧
    ∀ a : Dword, inText s a = true → readByte t.mem a.toNat = readByte s.mem a.toNat

/-- What the general registers and the flags keep: IN alone writes EAX, INS alone EDI, OUTS alone ESI (both repeated or not),
REP alone ECX, and only CLI, STI and POPF write EFLAGS (spec/10 R10 to R14; that I/O writes no flag, R20, is GK7, log 35; the
narrow names are GK4, log 5). -/
def Obligations.RegistersKept : Prop :=
  ∀ (i : Instr) (s t : State), exec i s = .next t →
    (t.ecx ≠ s.ecx → ∃ p x, i = .rep p x) ∧
    ((∀ p, i ≠ .cli p ∧ i ≠ .sti p ∧ i ≠ .popf p) → t.eflags = s.eflags) ∧
    ((∀ p, i ≠ .popf p) → t.popImages = s.popImages ∧ t.popfDraws = s.popfDraws) ∧
    (storesMemory i = false → t.edi = s.edi) ∧
    ((∀ p x, (stringShape x).1 = .write → i ≠ stringInstr p x ∧ i ≠ .rep p x) → t.esi = s.esi) ∧
    ((∃ p x, i = stringInstr p x ∨ i = .rep p x) → t.eax = s.eax) ∧
    (∀ port w, ioTransfer i s = some (.write, port, w) → t.eax = s.eax ∧ t.portAnswers = s.portAnswers) ∧
    ((∃ port w, ioTransfer i s = some (.read, port, w)) → t.esi = s.esi) ∧
    (ioTransfer i s = none → t.eax = s.eax ∧ t.esi = s.esi ∧ t.edi = s.edi ∧ t.ecx = s.ecx ∧ t.mem = s.mem ∧
      t.portAnswers = s.portAnswers)

/-- EDX[31:16] takes no part: an instruction does the same whatever it is, and leaves it (spec/10 R11; GK4). -/
def Obligations.UpperEdxTakesNoPart : Prop :=
  ∀ (i : Instr) (h : BitVec 16) (s : State), exec i (withEdxHigh h s) = mapNext (withEdxHigh h) (exec i s)

/-! ## Protection -/

/-- In real mode both checks pass and no instruction faults; outside it both mechanisms operate: a failed IOPL gate stops CLI
and STI, and a map that is consulted and forbids stops the I/O operation (spec/20 R59, R60, spec/42 R140). That the gate holds
in virtual 8086 mode is the spec's inference (R146; log 39, DEDUCED), with CPL 3 there by GK13 (log 10). -/
def Obligations.ProtectionOperatesOutsideRealModeOnly : Prop :=
  ∀ s : State,
    (mode s = .real →
      sensitiveCheck s = .next () ∧ (∀ p w, RangeOk p w → ioPermCheck s p w = .next ()) ∧
      ∀ i r, exec i s ≠ .fault r) ∧
    (mode s ≠ .real →
      (iopl s < cpl s → ∃ r, sensitiveCheck s = .fault r) ∧
      ∀ p w, RangeOk p w → MapConsulted s → ∀ r, mapCheck s p.toNat (widthBytes w) = .fault r →
        ioPermCheck s p w = .fault r)

/-- R61. In protected mode CPL <= IOPL decides first, and then no map is consulted, whatever TSS and memory hold; otherwise
the map decides. -/
def Obligations.IoplGateBeforeMap : Prop :=
  ∀ (s : State) (p : Port) (w : Width), mode s = .prot → RangeOk p w →
    (cpl s ≤ iopl s → ∀ t m, ioPermCheck { s with tss := t, mem := m } p w = .next ()) ∧
    (iopl s < cpl s → ioPermCheck s p w = mapCheck s p.toNat (widthBytes w))

/-- R62. In virtual 8086 mode the map alone decides, whatever IOPL is. -/
def Obligations.V86IgnoresIopl : Prop :=
  ∀ (s : State) (p : Port) (w : Width), mode s = .v86 → RangeOk p w →
    ioPermCheck s p w = mapCheck s p.toNat (widthBytes w) ∧
    ∀ e : Dword, (∀ j, j ≠ 12 → j ≠ 13 → e.getLsbD j = s.eflags.getLsbD j) →
      ioPermCheck { s with eflags := e } p w = ioPermCheck s p w

/-- The whole permission check, bit by bit: it passes exactly when the transfer is permitted and raises GP(0) exactly when it
is not, and it is refused where the TSS it must read cannot be read (spec/20 R63 to R69; the field's offset is GK10, the
bit order GK9, the 80286 arm GK11, the unreadable TSS log 21). -/
def Obligations.PermissionCheckIsTheRules : Prop :=
  ∀ (s : State) (p : Port) (w : Width), RangeOk p w →
    (ioPermCheck s p w = .next () ↔ IoPermitted s p w) ∧
    (¬ IoPermitted s p w → TssReadable s → ioPermCheck s p w = .fault (gpFault s)) ∧
    (¬ IoPermitted s p w → ¬ TssReadable s → ioPermCheck s p w = .refused .tssReadFault)

/-- A TSS limit of map base + 31 maps the first 256 ports: with zero bits they are all permitted, and an operation on any
port greater than 255 faults (spec/20 R66, whose example this is; the port range of R49 is D6). -/
def Obligations.FirstTwoHundredFiftySixPorts : Prop :=
  ∀ (s : State) (p : Port) (w : Width), MapConsulted s → TssReadable s → s.tss.is386 = true →
    s.params.iopbExtraByte = false → s.tss.limit = mapBase s + 31 →
    (∀ k < 32, tssByte s (mapBase s + k) = 0) → RangeOk p w →
    (p.toNat + widthBytes w ≤ 256 → ioPermCheck s p w = .next ()) ∧
    (256 < p.toNat + widthBytes w → ioPermCheck s p w = .fault (gpFault s))

/-- A map base at or past the TSS limit is no map: every I/O instruction whose map is consulted faults, for every port and
in virtual 8086 mode too (spec/20 R67, D12; ports past 65535 are D6). -/
def Obligations.NoMapDeniesEveryPort : Prop :=
  ∀ (i : Instr) (s : State) (dir : IoDir) (port : Port) (w : Width), ioTransfer i s = some (dir, port, w) →
    RangeOk port w → MapConsulted s → TssReadable s → s.tss.limit ≤ mapBase s → exec i s = .fault (gpFault s)

/-- With IopbExtraByte the check permits no more than without it (spec/20 R68, D13). -/
def Obligations.ExtraByteOnlyDenies : Prop :=
  ∀ (s : State) (q : Params) (p : Port) (w : Width), q.iopbExtraByte = true →
    ioPermCheck { s with params := q } p w = .next () →
    ioPermCheck { s with params := { q with iopbExtraByte := false } } p w = .next ()

/-- An I/O instruction that is not permitted raises GP(0), vector 13, error code 0, with the pc of the instruction, and does
nothing else (spec/60 R150 to R152; number and code are GK12). -/
def Obligations.ForbiddenIoRaisesGP : Prop :=
  ∀ (i : Instr) (s : State) (dir : IoDir) (port : Port) (w : Width), ioTransfer i s = some (dir, port, w) →
    RangeOk port w → TssReadable s → ¬ IoPermitted s port w → exec i s = .fault (.generalProtection 13 0 s.pc)

/-- Nothing else faults: a fault is GP(0) at the instruction, outside real mode, from CLI or STI with CPL > IOPL or from an
I/O instruction that the consulted map does not permit (spec/60 R150, R153, R155; spec/20 R68, R69). Vector 13 and error code 0
are GK12 (log 17, PRESUMED). Not permitted takes in, beside the cases of R150, a TSS of the 80286 format (GK11, log 22,
PRESUMED) and the extra byte of IopbExtraByte (D13, log 20). -/
def Obligations.FaultsOnlyFromFailedChecks : Prop :=
  ∀ (i : Instr) (s : State) (r : Fault), exec i s = .fault r →
    r = .generalProtection 13 0 s.pc ∧ mode s ≠ .real ∧
    ((∃ p, (i = .cli p ∨ i = .sti p) ∧ iopl s < cpl s) ∨
      ∃ dir port w, ioTransfer i s = some (dir, port, w) ∧ RangeOk port w ∧ MapConsulted s ∧ TssReadable s ∧
        ¬ MapPermits s port w)

/-- A transfer whose ports would pass 65535 is refused, in every mode (spec/20 R49, which is D6). -/
def Obligations.PortsPastTopRefused : Prop :=
  ∀ (i : Instr) (s : State) (dir : IoDir) (port : Port) (w : Width), ioTransfer i s = some (dir, port, w) →
    ¬ RangeOk port w → exec i s = .refused .portRangePastTop

/-- An I/O instruction that is not permitted and whose check cannot read the TSS is refused (spec/20 R69: D14, log 21). -/
def Obligations.UnreadableTssRefused : Prop :=
  ∀ (i : Instr) (s : State) (dir : IoDir) (port : Port) (w : Width), ioTransfer i s = some (dir, port, w) →
    RangeOk port w → ¬ IoPermitted s port w → ¬ TssReadable s → exec i s = .refused .tssReadFault

/-- An instruction that has all it needs but whose end passes the code segment's limit is refused, REP in its last iteration
(spec/10 R15: GK18, D27, log 16). -/
def Obligations.PcPastTopRefused : Prop :=
  ∀ (i : Instr) (s : State), ¬ PcFits (instrLength i) s →
    (∀ dir port w, ioTransfer i s = some (dir, port, w) → RangeOk port w ∧ IoPermitted s port w) →
    (∀ p x, i = stringInstr p x → StringReady x p s) →
    (∀ p x, i = .rep p x →
      offsetOf (addrSize p s) s.ecx = 0 ∨ (offsetOf (addrSize p s) s.ecx = 1 ∧ StringReady x p s)) →
    (∀ p, i = .cli p ∨ i = .sti p → SensitivePermitted s) → (∀ p, i = .popf p → mode s ≠ .v86) →
    exec i s = .refused .pcPastTop

/-- IOPL changes only by a POPF in real mode or at CPL 0 (spec/10 R16, spec/42 R143). -/
def Obligations.IoplChangesOnlyByPrivilegedPopf : Prop :=
  ∀ s t : State, step s = .next t → iopl t ≠ iopl s →
    (mode s = .real ∨ cpl s = 0) ∧ ∃ p rest, decode s.params.defaultOpSize (fetch s) = .ok (.popf p) rest

/-- IF changes only by CLI, STI or POPF, and only in real mode or where CPL <= IOPL (spec/10 R18, spec/42 R140, R144). -/
def Obligations.IfChangesOnlyByThePermitted : Prop :=
  ∀ s t : State, step s = .next t → ifFlag t ≠ ifFlag s →
    (mode s = .real ∨ cpl s ≤ iopl s) ∧
    ∃ p rest, decode s.params.defaultOpSize (fetch s) = .ok (.cli p) rest ∨
      decode s.params.defaultOpSize (fetch s) = .ok (.sti p) rest ∨
      decode s.params.defaultOpSize (fetch s) = .ok (.popf p) rest

/-! ## IN and OUT -/

/-- `IN AL`, `IN AX` and `IN EAX` with an immediate port (spec/40 R101 to R103, R113): where permitted, the device's answer
goes to the accumulator, the rest of EAX stays (GK4), one event is recorded, and nothing else changes but pc. -/
def Obligations.InImmediateResult : Prop :=
  ∀ (p : Prefixes) (imm : Byte) (s : State), PcFits (prefixCount p + 2) s →
    let port : Port := imm.setWidth 16
    let after := fun w => { s with
      eax := eaxAfter w s.eax (answerOf s port w)
      history := s.history ++ [⟨.read, port, w, answerOf s port w⟩]
      portAnswers := s.portAnswers.tail
      pc := s.pc + BitVec.ofNat 32 (prefixCount p + 2) }
    (IoPermitted s port .byte → exec (.inAlImm8 p imm) s = .next (after .byte)) ∧
    (IoPermitted s port .word → exec (.inAxImm8 p imm) s = .next (after .word)) ∧
    (IoPermitted s port .dword → exec (.inEaxImm8 p imm) s = .next (after .dword))

/-- `IN AL`, `IN AX` and `IN EAX` with the port in DX (spec/40 R104 to R106, R113). -/
def Obligations.InDxResult : Prop :=
  ∀ (p : Prefixes) (s : State), PcFits (prefixCount p + 1) s →
    let port : Port := s.edx.setWidth 16
    let after := fun w => { s with
      eax := eaxAfter w s.eax (answerOf s port w)
      history := s.history ++ [⟨.read, port, w, answerOf s port w⟩]
      portAnswers := s.portAnswers.tail
      pc := s.pc + BitVec.ofNat 32 (prefixCount p + 1) }
    (IoPermitted s port .byte → exec (.inAlDx p) s = .next (after .byte)) ∧
    (RangeOk port .word → IoPermitted s port .word → exec (.inAxDx p) s = .next (after .word)) ∧
    (RangeOk port .dword → IoPermitted s port .dword → exec (.inEaxDx p) s = .next (after .dword))

/-- `OUT` of AL, AX and EAX to an immediate port (spec/40 R107 to R109, R113): where permitted, one event is recorded and
nothing else changes but pc. -/
def Obligations.OutImmediateResult : Prop :=
  ∀ (p : Prefixes) (imm : Byte) (s : State), PcFits (prefixCount p + 2) s →
    let port : Port := imm.setWidth 16
    let after := fun w => { s with
      history := s.history ++ [⟨.write, port, w, lowBits w s.eax⟩]
      pc := s.pc + BitVec.ofNat 32 (prefixCount p + 2) }
    (IoPermitted s port .byte → exec (.outImm8Al p imm) s = .next (after .byte)) ∧
    (IoPermitted s port .word → exec (.outImm8Ax p imm) s = .next (after .word)) ∧
    (IoPermitted s port .dword → exec (.outImm8Eax p imm) s = .next (after .dword))

/-- `OUT` of AL, AX and EAX to the port in DX (spec/40 R110 to R112, R113). -/
def Obligations.OutDxResult : Prop :=
  ∀ (p : Prefixes) (s : State), PcFits (prefixCount p + 1) s →
    let port : Port := s.edx.setWidth 16
    let after := fun w => { s with
      history := s.history ++ [⟨.write, port, w, lowBits w s.eax⟩]
      pc := s.pc + BitVec.ofNat 32 (prefixCount p + 1) }
    (IoPermitted s port .byte → exec (.outDxAl p) s = .next (after .byte)) ∧
    (RangeOk port .word → IoPermitted s port .word → exec (.outDxAx p) s = .next (after .word)) ∧
    (RangeOk port .dword → IoPermitted s port .dword → exec (.outDxEax p) s = .next (after .dword))

/-! ## INS, OUTS and REP -/

/-- INSB, INSW and INSD (spec/41 R121 to R125, R134, R135): a ready INS stores the device's answer at ES:(E)DI, little-endian
(GK8, log 3), leaves every other byte of memory, steps (E)DI (wrap GK17, log 37), records one event, and changes nothing else
but pc. A segment override does not change ES (R126). -/
def Obligations.InsResult : Prop :=
  ∀ (x : StringOp) (p : Prefixes) (s : State), (stringShape x).1 = .read → s.mem.wf →
    PcFits (prefixCount p + 1) s → StringReady x p s →
    let w := (stringShape x).2
    let port : Port := s.edx.setWidth 16
    let dest := elementByte s.es (offsetOf (addrSize p s) s.edi)
    ∃ m : Memory, m.wf ∧
      (∀ i < widthBytes w, readByte m (dest i).toNat = ((answerOf s port w) >>> (8 * i)).setWidth 8) ∧
      (∀ a, (∀ i < widthBytes w, a ≠ (dest i).toNat) → readByte m a = readByte s.mem a) ∧
      exec (stringInstr p x) s = .next { s with
        mem := m
        edi := indexMoved (addrSize p s) (dfFlag s) (widthBytes w) s.edi
        history := s.history ++ [⟨.read, port, w, answerOf s port w⟩]
        portAnswers := s.portAnswers.tail
        pc := s.pc + BitVec.ofNat 32 (prefixCount p + 1) }

/-- OUTSB, OUTSW and OUTSD (spec/41 R121, R122, R127 to R130, R134, R135; the override is GK19, D28, log 28; byte order GK8,
log 3; wrap GK17, log 37): a ready OUTS writes the element at DS:(E)SI, or in the overriding segment, to the port, steps
(E)SI, and changes nothing else but pc. -/
def Obligations.OutsResult : Prop :=
  ∀ (x : StringOp) (p : Prefixes) (s : State), (stringShape x).1 = .write →
    PcFits (prefixCount p + 1) s → StringReady x p s →
    let w := (stringShape x).2
    let a := (s.segReg (p.seg.getD .ds)).base + offsetOf (addrSize p s) s.esi
    exec (stringInstr p x) s = .next { s with
      esi := indexMoved (addrSize p s) (dfFlag s) (widthBytes w) s.esi
      history := s.history ++ [⟨.write, s.edx.setWidth 16, w, elementValue s.mem a w⟩]
      pc := s.pc + BitVec.ofNat 32 (prefixCount p + 1) }

/-- INS and OUTS, repeated or not, neither read nor write EAX and write no flag: with another value in EAX they do the same and
leave that value (spec/41 R134). That they write no flag is R20, which is GK7 (log 35, PRESUMED); the forms with REP are R131,
which is GK5 (log 19, PRESUMED). -/
def Obligations.StringIoUsesNoDataRegister : Prop :=
  ∀ (i : Instr) (x : StringOp) (p : Prefixes) (s : State), i = stringInstr p x ∨ i = .rep p x →
    (∀ v : Dword, exec i { s with eax := v } = mapNext (fun t => { t with eax := v }) (exec i s)) ∧
    ∀ t, exec i s = .next t → t.eax = s.eax ∧ t.eflags = s.eflags

/-- A string instruction, or an iteration of it under REP, whose memory access the segment forbids is refused, an INS into the
program text too (spec/41 R133, R135, spec/20 R74; D7, D22; the segment interface is log 11, REP's count GK5, log 19). -/
def Obligations.BadMemoryRefused : Prop :=
  ∀ (i : Instr) (x : StringOp) (p : Prefixes) (s : State),
    (i = stringInstr p x ∨ (i = .rep p x ∧ offsetOf (addrSize p s) s.ecx ≠ 0)) →
    RangeOk (s.edx.setWidth 16) (stringShape x).2 → IoPermitted s (s.edx.setWidth 16) (stringShape x).2 →
    let n := widthBytes (stringShape x).2
    let off := offsetOf (addrSize p s) s.edi
    let src := s.segReg (p.seg.getD .ds)
    ((stringShape x).1 = .read → ¬ (s.es.writable = true ∧ OffsetOk s.es off n) → exec i s = .refused .memoryFault) ∧
    ((stringShape x).1 = .read → s.es.writable = true → OffsetOk s.es off n →
      (∃ j < n, inText s (elementByte s.es off j) = true) → exec i s = .refused .storeIntoText) ∧
    ((stringShape x).1 = .write →
      ¬ (src.readable = true ∧ OffsetOk src (offsetOf (addrSize p s) s.esi) n) → exec i s = .refused .memoryFault)

/-- REP with a count of 0 moves pc and does nothing else, with no permission check (spec/41 R132: GK5, D10). -/
def Obligations.RepWithCountZero : Prop :=
  ∀ (x : StringOp) (p : Prefixes) (s : State), offsetOf (addrSize p s) s.ecx = 0 → PcFits (prefixCount p + 2) s →
    exec (.rep p x) s = .next { s with pc := s.pc + BitVec.ofNat 32 (prefixCount p + 2) }

/-- One iteration of REP with a ready element (spec/41 R131, R133: GK5, log 19; the index wraps by GK17, log 37; bytes are
little-endian by GK8, log 3; the override of OUTS is GK19 and D28, log 28): the element is transferred as by the bare string
instruction, the count is one less, and pc moves past the instruction when the count is then 0 and stays otherwise. Only an
iteration that moves pc needs room for it. Where the bare instruction has room too, it reaches the same state but for the
count and pc. -/
def Obligations.RepIteration : Prop :=
  ∀ (x : StringOp) (p : Prefixes) (s : State), offsetOf (addrSize p s) s.ecx ≠ 0 →
    (offsetOf (addrSize p s) s.ecx = 1 → PcFits (prefixCount p + 2) s) → StringReady x p s →
    let z := addrSize p s
    let w := (stringShape x).2
    let port : Port := s.edx.setWidth 16
    let dest := elementByte s.es (offsetOf z s.edi)
    let counted := fun t : State => { t with
      ecx := ecxLess z s.ecx
      pc := if offsetOf z s.ecx = 1 then s.pc + BitVec.ofNat 32 (prefixCount p + 2) else s.pc }
    ((stringShape x).1 = .write →
      exec (.rep p x) s = .next (counted { s with
        esi := indexMoved z (dfFlag s) (widthBytes w) s.esi
        history := s.history ++
          [⟨.write, port, w, elementValue s.mem ((s.segReg (p.seg.getD .ds)).base + offsetOf z s.esi) w⟩] })) ∧
    ((stringShape x).1 = .read → s.mem.wf →
      ∃ m : Memory, m.wf ∧
        (∀ i < widthBytes w, readByte m (dest i).toNat = ((answerOf s port w) >>> (8 * i)).setWidth 8) ∧
        (∀ a, (∀ i < widthBytes w, a ≠ (dest i).toNat) → readByte m a = readByte s.mem a) ∧
        exec (.rep p x) s = .next (counted { s with
          mem := m
          edi := indexMoved z (dfFlag s) (widthBytes w) s.edi
          history := s.history ++ [⟨.read, port, w, answerOf s port w⟩]
          portAnswers := s.portAnswers.tail })) ∧
    (PcFits (prefixCount p + 1) s →
      ∃ t, exec (stringInstr p x) s = .next t ∧ exec (.rep p x) s = .next (counted t))

/-- A REP OUTS of count k > 0 whose elements can all be read and whose port is permitted runs to its end in k iterations: k
writes to the port DX of the k elements in order, the index moved by k elements, the count 0, pc past the instruction, and
nothing else changed (spec/41 R131: GK5, log 19; the index wraps by GK17, log 37; elements are little-endian by GK8, log 3; the
override is GK19 and D28, log 28). -/
def Obligations.RepOutsMovesTheBlock : Prop :=
  ∀ (x : StringOp) (p : Prefixes) (s : State) (k : Nat), (stringShape x).1 = .write →
    let w := (stringShape x).2
    let z := addrSize p s
    let port : Port := s.edx.setWidth 16
    let off := fun j => offsetOf z (indexMoved z (dfFlag s) (j * widthBytes w) s.esi)
    let seg := s.segReg (p.seg.getD .ds)
    (offsetOf z s.ecx).toNat = k → 0 < k → PcFits (prefixCount p + 2) s → RangeOk port w → IoPermitted s port w →
    (∀ j < k, SourceOk w p (off j) s) →
    execTimes (.rep p x) k s = .next { s with
      ecx := ecxDone z s.ecx
      esi := indexMoved z (dfFlag s) (k * widthBytes w) s.esi
      pc := s.pc + BitVec.ofNat 32 (prefixCount p + 2)
      history := s.history ++
        (List.range k).map (fun j => ⟨.write, port, w, elementValue s.mem (seg.base + off j) w⟩) }

/-- A REP INS of count k > 0 that gets through k iterations has ended: k reads of the port DX, their values at the k elements
in order (but where a later element lies on top), no other byte of memory changed, the index moved by k elements, the count
0, pc past the instruction, and nothing else changed (spec/41 R131: GK5, log 19; the index wraps by GK17, log 37; values are
little-endian by GK8, log 3). -/
def Obligations.RepInsMovesTheBlock : Prop :=
  ∀ (x : StringOp) (p : Prefixes) (s t : State) (k : Nat), (stringShape x).1 = .read → s.mem.wf →
    let w := (stringShape x).2
    let z := addrSize p s
    let port : Port := s.edx.setWidth 16
    let dest := fun j => elementByte s.es (offsetOf z (indexMoved z (dfFlag s) (j * widthBytes w) s.edi))
    (offsetOf z s.ecx).toNat = k → 0 < k → execTimes (.rep p x) k s = .next t →
    ∃ vs : List Dword, vs.length = k ∧
      t = { s with
        ecx := ecxDone z s.ecx
        edi := indexMoved z (dfFlag s) (k * widthBytes w) s.edi
        pc := s.pc + BitVec.ofNat 32 (prefixCount p + 2)
        mem := t.mem
        history := s.history ++ vs.map (fun v => ⟨.read, port, w, v⟩)
        portAnswers := s.portAnswers.drop k } ∧
      (∀ (j : Nat) (v : Dword), vs[j]? = some v → ∀ i < widthBytes w,
        (∀ j' i', j < j' → j' < k → i' < widthBytes w → dest j' i' ≠ dest j i) →
        readByte t.mem (dest j i).toNat = (v >>> (8 * i)).setWidth 8) ∧
      ∀ a, (∀ j < k, ∀ i < widthBytes w, a ≠ (dest j i).toNat) → readByte t.mem a = readByte s.mem a

/-! ## CLI, STI and POPF -/

/-- CLI and STI (spec/42 R140 to R142): where permitted, IF is cleared or set, every other bit of EFLAGS and all else but pc
stay; otherwise GP(0). Bit 9 is GK6, the fault's number and code GK12. -/
def Obligations.CliStiResult : Prop :=
  ∀ (p : Prefixes) (s : State),
    (SensitivePermitted s → PcFits (prefixCount p + 1) s →
      exec (.cli p) s = .next { s with
        eflags := s.eflags &&& 0xFFFFFDFF
        pc := s.pc + BitVec.ofNat 32 (prefixCount p + 1) } ∧
      exec (.sti p) s = .next { s with
        eflags := s.eflags ||| 0x00000200
        pc := s.pc + BitVec.ofNat 32 (prefixCount p + 1) }) ∧
    (¬ SensitivePermitted s →
      exec (.cli p) s = .fault (.generalProtection 13 0 s.pc) ∧
      exec (.sti p) s = .fault (.generalProtection 13 0 s.pc))

/-- POPF (spec/42 R143 to R145): DF from the image, IOPL in real mode or at CPL 0, IF in real mode or where CPL <= IOPL, every
other bit of EFLAGS as it was (log 7), the image used up (log 8), nothing else changed but pc. Bit positions are GK6. -/
def Obligations.PopfResult : Prop :=
  ∀ (p : Prefixes) (s : State), mode s ≠ .v86 → PcFits (prefixCount p + 1) s →
    let img := s.popImages.headD (Config.popfImage s.popfDraws)
    ∃ e : Dword,
      (∀ j, e.getLsbD j =
        if j = 10 ∨ ((j = 12 ∨ j = 13) ∧ (mode s = .real ∨ cpl s = 0)) ∨ (j = 9 ∧ (mode s = .real ∨ cpl s ≤ iopl s))
        then img.getLsbD j else s.eflags.getLsbD j) ∧
      exec (.popf p) s = .next { s with
        eflags := e
        popImages := s.popImages.tail
        popfDraws := s.popfDraws + 1
        pc := s.pc + BitVec.ofNat 32 (prefixCount p + 1) }

/-- POPF never raises an exception; outside real mode a procedure that is not at level 0 leaves IOPL unaltered, and one less
privileged than IOPL leaves IF unaltered, silently (spec/60 R153, spec/42 R143 to R145). In virtual 8086 mode no POPF faults
because the model refuses it there (R146: D26, log 9), and that none faults on its stack is because the model reads no stack
(log 7). -/
def Obligations.PopfNeverFaults : Prop :=
  ∀ (p : Prefixes) (s : State),
    (∀ r, exec (.popf p) s ≠ .fault r) ∧
    ∀ t, exec (.popf p) s = .next t → mode s ≠ .real →
      (cpl s ≠ 0 → iopl t = iopl s) ∧ (iopl s < cpl s → ifFlag t = ifFlag s)

/-- POPF in virtual 8086 mode is refused (spec/42 R146: D26). -/
def Obligations.PopfInV86Refused : Prop :=
  ∀ (p : Prefixes) (s : State), mode s = .v86 → exec (.popf p) s = .refused .popfInV86

/-! ## Memory -/

/-- What MemWrite stores, MemRead reads back, little-endian, and every other byte of memory reads as before (spec/20 R54,
R55; the byte order is GK8). -/
def Obligations.MemReadAfterMemWrite : Prop :=
  ∀ (s t : State) (g : Seg) (off v : Dword) (w : Width), s.mem.wf → (s.segReg g).readable = true →
    memWrite s g off w v = .next t →
    memRead t g off w = .next (lowBits w v) ∧ t.mem.wf ∧
    (∀ i < widthBytes w, readByte t.mem (elementByte (s.segReg g) off i).toNat = (v >>> (8 * i)).setWidth 8) ∧
    ∀ a, (∀ i < widthBytes w, a ≠ (elementByte (s.segReg g) off i).toNat) → readByte t.mem a = readByte s.mem a
end

