-- ==== Sys2Proof/Laws/Encoding.lean ====
section
/-! SUPPORT. The laws of decoding that its statements go through: the bytes before an opcode, the lengths, and what a fetch
sees of bytes in memory. -/

namespace Sys2Proof

open Sys2Proof.Safety

/-- Decoding reads the encoder's leading bytes back. -/
theorem decodeFrom_encodePrefixes (d : Size) (rep : Bool) (p : Prefixes) (tail : List Byte) :
    decodeFrom d ⟨rep, noPrefixes⟩ (encodePrefixes p ++ tail) = decodeFrom d ⟨rep, p⟩ tail := by
  obtain ⟨o, a, _ | g⟩ := p
  · cases o <;> cases a <;> rfl
  · cases g <;> cases o <;> cases a <;> rfl

theorem prefixCount_le (p : Prefixes) : prefixCount p ≤ 3 := by
  obtain ⟨o, a, g⟩ := p
  cases o <;> cases a <;> cases g <;> simp [prefixCount]

theorem length_encodePrefixes (p : Prefixes) : (encodePrefixes p).length = prefixCount p := by
  obtain ⟨o, a, g⟩ := p
  cases o <;> cases a <;> cases g <;> rfl

/-- Noting a byte of one kind and one of another commutes (spec/30 R81). -/
theorem notePrefix_comm {ps : PrefixState} {j k : PrefixByte} (hjk : j ≠ k)
    (hs : ∀ g h, ¬ (j = .seg g ∧ k = .seg h)) (hj : j ≠ .repne ∧ j ≠ .lock) (hk : k ≠ .repne ∧ k ≠ .lock) :
    (notePrefix ps j).bind (notePrefix · k) = (notePrefix ps k).bind (notePrefix · j) := by
  obtain ⟨r, o, a, g⟩ := ps
  cases j <;> cases k <;> first
    | exact absurd rfl hjk
    | exact absurd ⟨rfl, rfl⟩ (hs _ _)
    | exact absurd rfl hj.1
    | exact absurd rfl hj.2
    | exact absurd rfl hk.1
    | exact absurd rfl hk.2
    | (cases r <;> cases o <;> cases a <;> cases g <;> rfl)

/-- What `ps` has noted of the kind of the byte `b`. -/
def noted (ps : PrefixState) (b : Byte) : Bool :=
  match prefixByteOf b with
  | some .opSize => ps.pfx.opSize
  | some .addrSize => ps.pfx.addrSize
  | some .rep => ps.rep
  | some (.seg _) => ps.pfx.seg.isSome
  | some .repne => false
  | some .lock => false
  | none => false

/-- The admitted bytes, one by one. -/
theorem sameKind_self_iff (b : Byte) :
    SameKind b b ↔ b ∈ ([0x66, 0x67, 0xF3, 0x26, 0x2E, 0x36, 0x3E, 0x64, 0x65] : List Byte) := by
  simp [SameKind, prefixKinds]

theorem sameKind_right {b c : Byte} (h : SameKind b c) : SameKind c c := by
  obtain ⟨g, hg, _, hc⟩ := h; exact ⟨g, hg, hc, hc⟩

/-- A byte whose kind is noted already is refused. -/
theorem decodeFrom_repeated {d : Size} {ps : PrefixState} {b : Byte} (hb : SameKind b b) (hn : noted ps b = true)
    (tail : List Byte) : decodeFrom d ps (b :: tail) = .error .repeatedPrefix := by
  obtain ⟨r, o, a, g⟩ := ps
  rw [sameKind_self_iff] at hb
  simp only [List.mem_cons, List.not_mem_nil, or_false] at hb
  rcases hb with rfl | rfl | rfl | rfl | rfl | rfl | rfl | rfl | rfl
  · obtain rfl : o = true := hn; rfl
  · obtain rfl : a = true := hn; rfl
  · obtain rfl : r = true := hn; rfl
  all_goals
    cases g
    · cases hn
    · rfl

/-- What is noted of a byte, by the byte. -/
theorem noted_eq (ps : PrefixState) (b : Byte) :
    noted ps b =
      if b = 0x66 then ps.pfx.opSize else if b = 0x67 then ps.pfx.addrSize else if b = 0xF3 then ps.rep
      else if b ∈ ([0x26, 0x2E, 0x36, 0x3E, 0x64, 0x65] : List Byte) then ps.pfx.seg.isSome else false := by
  have table : ∀ b : BitVec 8, (match prefixByteOf b with
      | some (.seg _) => some (PrefixByte.seg .es)
      | k => k) =
      if b = 0x66 then some .opSize else if b = 0x67 then some .addrSize else if b = 0xF3 then some .rep
      else if b = 0xF2 then some .repne else if b = 0xF0 then some .lock
      else if b ∈ ([0x26, 0x2E, 0x36, 0x3E, 0x64, 0x65] : List Byte) then some (.seg .es) else none := by decide
  have h := table b
  unfold noted
  by_cases h1 : b = 0x66
  · subst h1; rfl
  by_cases h2 : b = 0x67
  · subst h2; rfl
  by_cases h3 : b = 0xF3
  · subst h3; rfl
  by_cases h4 : b = 0xF2
  · subst h4; rfl
  by_cases h5 : b = 0xF0
  · subst h5; rfl
  simp only [h1, h2, h3, h4, h5, if_false] at h ⊢
  by_cases h6 : b ∈ ([0x26, 0x2E, 0x36, 0x3E, 0x64, 0x65] : List Byte)
  · rw [if_pos h6] at h ⊢
    split at h <;> simp_all
  · rw [if_neg h6] at h ⊢
    split at h <;> simp_all

/-- A byte whose kind is not noted yet is noted, and nothing else is. -/
theorem decodeFrom_admitted_byte {d : Size} {ps : PrefixState} {b : Byte} (hb : SameKind b b)
    (hn : noted ps b = false) :
    ∃ qs, (∀ tail, decodeFrom d ps (b :: tail) = decodeFrom d qs tail) ∧
      ∀ c, noted qs c = true ↔ noted ps c = true ∨ SameKind b c := by
  obtain ⟨r, o, a, g⟩ := ps
  rw [sameKind_self_iff] at hb
  simp only [List.mem_cons, List.not_mem_nil, or_false] at hb
  rcases hb with rfl | rfl | rfl | rfl | rfl | rfl | rfl | rfl | rfl
  · obtain rfl : o = false := hn
    refine ⟨⟨r, true, a, g⟩, fun _ => rfl, fun c => ?_⟩
    by_cases h : c = 0x66#8 <;> simp [noted_eq, SameKind, prefixKinds, h]
  · obtain rfl : a = false := hn
    refine ⟨⟨r, o, true, g⟩, fun _ => rfl, fun c => ?_⟩
    by_cases h : c = 0x67#8 <;> simp [noted_eq, SameKind, prefixKinds, h]
  · obtain rfl : r = false := hn
    refine ⟨⟨true, o, a, g⟩, fun _ => rfl, fun c => ?_⟩
    by_cases h : c = 0xF3#8 <;> simp [noted_eq, SameKind, prefixKinds, h]
  all_goals
    obtain rfl : g = none := by cases g <;> first | rfl | cases hn
    refine ⟨⟨r, o, a, some _⟩, fun _ => rfl, fun c => ?_⟩
    by_cases h : c ∈ ([0x26, 0x2E, 0x36, 0x3E, 0x64, 0x65] : List Byte)
    · simp only [List.mem_cons, List.not_mem_nil, or_false] at h
      rcases h with rfl | rfl | rfl | rfl | rfl | rfl <;> simp [noted_eq, SameKind, prefixKinds]
    · simp only [noted_eq, if_neg h]
      simp only [List.mem_cons, List.not_mem_nil, or_false] at h
      simp [SameKind, prefixKinds]
      exact fun h' => absurd h' h

/-- Decoding notes an admitted list of bytes, exactly their kinds, and goes on after it (spec/30 R81, R86). -/
theorem decodeFrom_admitted {d : Size} {ps : List Byte} (hp : AdmittedPrefixes ps) (st : PrefixState)
    (hn : ∀ b ∈ ps, noted st b = false) :
    ∃ qs, (∀ tail, decodeFrom d st (ps ++ tail) = decodeFrom d qs tail) ∧
      ∀ c, noted qs c = true ↔ noted st c = true ∨ ∃ b ∈ ps, SameKind b c := by
  induction ps generalizing st with
  | nil => exact ⟨st, fun _ => rfl, fun c => by simp⟩
  | cons b ps ih =>
    obtain ⟨hk, hd⟩ := hp
    rw [List.pairwise_cons] at hd
    obtain ⟨st', hst, hn'⟩ := decodeFrom_admitted_byte (d := d) (hk b (by simp)) (hn b (by simp))
    obtain ⟨qs, hqs, hq⟩ := ih ⟨fun c hc => hk c (by simp [hc]), hd.2⟩ st' fun c hc => by
      rw [← Bool.not_eq_true, hn' c, hn c (by simp [hc])]
      exact fun h => h.elim (by simp) (hd.1 c hc)
    refine ⟨qs, fun tail => (hst _).trans (hqs tail), fun c => ?_⟩
    rw [hq, hn', or_assoc]
    simp

namespace Machine

/-- A fetch sees the bytes that lie in the program text and the code segment. -/
theorem fetchBytes_of_memory (s : State) (bs : List Byte) (k off : Nat) (hk : bs.length ≤ k)
    (h : ∀ j (h : j < bs.length), off + j ≤ s.cs.limit.toNat ∧ inText s (s.cs.base + BitVec.ofNat 32 (off + j)) = true ∧
      readByte s.mem (s.cs.base + BitVec.ofNat 32 (off + j)).toNat = bs[j]) :
    ∃ r, fetchBytes s k off = bs ++ r := by
  induction bs generalizing k off with
  | nil => exact ⟨_, rfl⟩
  | cons b bs ih =>
    cases k with
    | zero => simp at hk
    | succ k =>
      obtain ⟨r, hr⟩ := ih k (off + 1) (by simpa using hk) fun j hj => by
        have := h (j + 1) (by simpa using hj)
        rw [show off + 1 + j = off + (j + 1) by omega]; simpa using this
      obtain ⟨h1, h2, h3⟩ := h 0 (by simp)
      have h3 : readByte s.mem (s.cs.base + BitVec.ofNat 32 off).toNat = b := h3
      refine ⟨r, ?_⟩
      unfold fetchBytes
      rw [if_pos (by rw [Bool.and_eq_true]; exact ⟨by simpa using h1, h2⟩), hr]
      show readByte s.mem (s.cs.base + BitVec.ofNat 32 off).toNat :: _ = _
      rw [h3]; rfl

end Machine

end Sys2Proof
end

