-- ==== Sys2Proof/Laws/Memory.lean ====
section
/-! SUPPORT. The laws of memory: a read after a write, the frame of a write, and that every write keeps the canonical
form. -/

namespace Sys2Proof.Machine

theorem readByte_cons (c : Host.Cell) (m : Memory) (a : Nat) :
    readByte (c :: m) a = if c.1 = a then c.2 else readByte m a := rfl

/-- Below every listed address nothing is listed. -/
theorem readByte_eq_unlisted_of_lt {m : Memory} {a : Nat} (h : ∀ c ∈ m, a < c.1) : readByte m a = unlistedByte := by
  induction m with
  | nil => rfl
  | cons c m ih =>
    have hc := h c (by simp)
    rw [readByte_cons, if_neg (by omega), ih fun d hd => h d (by simp [hd])]

theorem readByte_consByte_ne {a b : Nat} (hb : b ≠ a) (v : Byte) (m : Memory) :
    readByte (consByte a v m) b = readByte m b := by
  unfold consByte
  split
  · rfl
  · rw [readByte_cons, if_neg (by simpa using Ne.symm hb)]

theorem readByte_consByte_same {a : Nat} (v : Byte) {m : Memory} (h : ∀ c ∈ m, a < c.1) :
    readByte (consByte a v m) a = v := by
  unfold consByte
  split
  · next hv => rw [readByte_eq_unlisted_of_lt h, hv]
  · rw [readByte_cons, if_pos rfl]

/-- A write leaves every other address alone, in any memory. -/
theorem readByte_writeByte_ne {a b : Nat} (hb : b ≠ a) (v : Byte) (m : Memory) :
    readByte (writeByte m a v) b = readByte m b := by
  induction m with
  | nil => exact readByte_consByte_ne hb v []
  | cons c m ih =>
    unfold writeByte
    split
    · rw [readByte_cons, readByte_cons, ih]
    · split
      · next hc => rw [readByte_consByte_ne hb, readByte_cons, if_neg (by omega)]
      · rw [readByte_consByte_ne hb]

/-- A read after a write to the same address gives the value written. -/
theorem readByte_writeByte_same {m : Memory} (hm : m.wf) (a : Nat) (v : Byte) : readByte (writeByte m a v) a = v := by
  induction m with
  | nil => exact readByte_consByte_same v (by simp)
  | cons c m ih =>
    obtain ⟨hs, hv⟩ := hm
    rw [List.pairwise_cons] at hs
    unfold writeByte
    split
    · rw [readByte_cons, if_neg (by omega), ih ⟨hs.2, fun d hd => hv d (by simp [hd])⟩]
    · split
      · next hc => exact readByte_consByte_same v fun d hd => hc ▸ hs.1 d hd
      · refine readByte_consByte_same v fun d hd => ?_
        rcases List.mem_cons.1 hd with rfl | hd
        · omega
        · have := hs.1 d hd; omega

theorem mem_consByte {a : Nat} {v : Byte} {m : Memory} {d : Host.Cell} (h : d ∈ consByte a v m) :
    (d = (a, v) ∧ v ≠ unlistedByte) ∨ d ∈ m := by
  unfold consByte at h
  split at h
  · exact .inr h
  · rcases List.mem_cons.1 h with h | h
    · exact .inl ⟨h, by assumption⟩
    · exact .inr h

/-- The cells after a write are the one written and the old ones. -/
theorem mem_writeByte {m : Memory} {a : Nat} {v : Byte} {d : Host.Cell} (h : d ∈ writeByte m a v) :
    (d = (a, v) ∧ v ≠ unlistedByte) ∨ d ∈ m := by
  induction m with
  | nil => exact mem_consByte h
  | cons c m ih =>
    unfold writeByte at h
    split at h
    · rcases List.mem_cons.1 h with rfl | h
      · exact .inr (by simp)
      · exact (ih h).imp id fun h => by simp [h]
    · split at h
      · exact (mem_consByte h).imp id fun h => by simp [h]
      · exact mem_consByte h

theorem wf_consByte {a : Nat} {v : Byte} {m : Memory} (hm : m.wf) (ha : a < addressSpace) (h : ∀ c ∈ m, a < c.1) :
    (consByte a v m).wf := by
  unfold consByte
  split
  · exact hm
  · next hv =>
    refine ⟨List.pairwise_cons.2 ⟨h, hm.1⟩, fun d hd => ?_⟩
    rcases List.mem_cons.1 hd with rfl | hd
    · exact ⟨hv, ha⟩
    · exact hm.2 d hd

/-- A write to an existing address keeps the canonical form. -/
theorem wf_writeByte {m : Memory} (hm : m.wf) {a : Nat} (ha : a < addressSpace) (v : Byte) : (writeByte m a v).wf := by
  induction m with
  | nil => exact wf_consByte hm ha (by simp)
  | cons c m ih =>
    obtain ⟨hs, hv⟩ := hm
    rw [List.pairwise_cons] at hs
    have hm' : Memory.wf m := ⟨hs.2, fun d hd => hv d (by simp [hd])⟩
    unfold writeByte
    split
    · next hc =>
      refine ⟨List.pairwise_cons.2 ⟨fun d hd => ?_, (ih hm').1⟩, fun d hd => ?_⟩
      · rcases mem_writeByte hd with ⟨rfl, _⟩ | hd
        · exact hc
        · exact hs.1 d hd
      · rcases List.mem_cons.1 hd with rfl | hd
        · exact hv d (by simp)
        · exact (ih hm').2 d hd
    · split
      · next hc => exact wf_consByte hm' ha fun d hd => hc ▸ hs.1 d hd
      · refine wf_consByte ⟨List.pairwise_cons.2 hs, hv⟩ ha fun d hd => ?_
        rcases List.mem_cons.1 hd with rfl | hd
        · omega
        · have := hs.1 d hd; omega

theorem dword_lt_addressSpace (a : Dword) : a.toNat < addressSpace := a.isLt

/-- Storing a group of bytes keeps the canonical form. -/
theorem wf_writeBytes {m : Memory} (hm : m.wf) (a : Dword) (n : Nat) (v : Dword) : (writeBytes m a n v).wf := by
  induction n generalizing m a v with
  | zero => exact hm
  | succ n ih => exact ih (wf_writeByte hm (dword_lt_addressSpace a) _) _ _

/-- Storing a list of bytes keeps the canonical form. -/
theorem wf_storeList {m : Memory} (hm : m.wf) (a : Dword) (bs : List Byte) : (storeList m a bs).wf := by
  induction bs generalizing m a with
  | nil => exact hm
  | cons b bs ih => exact ih (wf_writeByte hm (dword_lt_addressSpace a) _) _

theorem dword_succ_index (a : Dword) (i : Nat) : a + 1 + BitVec.ofNat 32 i = a + BitVec.ofNat 32 (i + 1) := by
  apply BitVec.eq_of_toNat_eq; simp; omega

theorem dword_index_succ (a : Dword) (i : Nat) : a + BitVec.ofNat 32 i + 1 = a + BitVec.ofNat 32 (i + 1) := by
  apply BitVec.eq_of_toNat_eq; simp; omega

theorem dword_index_zero (a : Dword) : a + BitVec.ofNat 32 0 = a := by simp

/-- Distinct indexes below 2^32 give distinct addresses. -/
theorem dword_index_ne (a : Dword) {i j : Nat} (hi : i < 2 ^ 32) (hj : j < 2 ^ 32) (h : i ≠ j) :
    (a + BitVec.ofNat 32 i).toNat ≠ (a + BitVec.ofNat 32 j).toNat := by
  have := a.isLt
  simp; omega

/-- A group store leaves every address outside its bytes alone, in any memory. -/
theorem readByte_writeBytes_outside (m : Memory) (a : Dword) (n : Nat) (v : Dword) {b : Nat}
    (h : ∀ i < n, b ≠ (a + BitVec.ofNat 32 i).toNat) : readByte (writeBytes m a n v) b = readByte m b := by
  induction n generalizing m a v with
  | zero => rfl
  | succ n ih =>
    show readByte (writeBytes (writeByte m a.toNat _) (a + 1) n _) b = _
    rw [ih _ _ _ fun i hi => by rw [dword_succ_index]; exact h (i + 1) (by omega), readByte_writeByte_ne]
    simpa using h 0 (by omega)

/-- A group store puts byte `i` of the value at the `i`-th address (spec/20 R55). -/
theorem readByte_writeBytes_inside {m : Memory} (hm : m.wf) (a : Dword) {n : Nat} (hn : n ≤ 2 ^ 32) (v : Dword) {i : Nat}
    (hi : i < n) : readByte (writeBytes m a n v) (a + BitVec.ofNat 32 i).toNat = (v >>> (8 * i)).setWidth 8 := by
  induction n generalizing m a v i with
  | zero => omega
  | succ n ih =>
    show readByte (writeBytes (writeByte m a.toNat _) (a + 1) n _) _ = _
    cases i with
    | zero =>
      rw [readByte_writeBytes_outside, dword_index_zero, readByte_writeByte_same hm]
      · simp
      · intro j hj
        rw [dword_succ_index]
        exact dword_index_ne a (by omega) (by omega) (by omega)
    | succ i =>
      rw [← dword_succ_index, ih (wf_writeByte hm (dword_lt_addressSpace a) _) _ (by omega) _ (by omega)]
      rw [← BitVec.shiftRight_add]
      congr 2
      omega

/-- A group of bytes is read as its bytes, the lowest address least significant (spec/20 R55). -/
theorem getLsbD_readBytes (m : Memory) (a : Dword) (n i : Nat) (hn : n ≤ 4) :
    (readBytes m a n).getLsbD i =
      (decide (i < 8 * n) && (readByte m (a + BitVec.ofNat 32 (i / 8)).toNat).getLsbD (i % 8)) := by
  induction n generalizing a i with
  | zero => simp [readBytes]
  | succ n ih =>
    rw [readBytes, BitVec.getLsbD_or, BitVec.getLsbD_shiftLeft, BitVec.getLsbD_setWidth]
    by_cases h8 : i < 8
    · have h0 : i / 8 = 0 := by omega
      have h1 : i % 8 = i := by omega
      simp [h8, h0, h1, show i < 32 by omega, show i < 8 * (n + 1) by omega]
    · rw [ih _ _ (by omega), dword_succ_index, show (i - 8) / 8 + 1 = i / 8 by omega, show (i - 8) % 8 = i % 8 by omega,
        BitVec.getLsbD_of_ge _ i (by omega)]
      by_cases h : i < 8 * (n + 1)
      · simp [h8, show i < 32 by omega, show i - 8 < 8 * n by omega, h]
      · simp [h, show ¬ i - 8 < 8 * n by omega]

end Sys2Proof.Machine
end

