-- ==== Sys2Proof/Laws/Operands.lean ====
section
/-! SUPPORT. The bit-level laws of the operands and of EFLAGS: the narrow registers as masks, and each flag after each
update. -/

namespace Sys2Proof.Machine

open Sys2Proof.Safety

theorem widthBytes_pos (w : Width) : 1 ≤ widthBytes w := by cases w <;> decide

theorem widthBytes_le (w : Width) : widthBytes w ≤ 4 := by cases w <;> decide

theorem getLsbD_truncTo (w : Width) (v : Dword) (i : Nat) :
    (truncTo w v).getLsbD i = (decide (i < 8 * widthBytes w) && v.getLsbD i) := by
  cases w <;> simp only [truncTo, widthBytes, BitVec.getLsbD_setWidth]
  · by_cases h : i < 8 <;> simp [h]; omega
  · by_cases h : i < 16 <;> simp [h]; omega
  · by_cases h : i < 32 <;> simp [h]; exact BitVec.getLsbD_of_ge _ _ (by omega)

theorem truncTo_lt (w : Width) (v : Dword) : (truncTo w v).toNat < 2 ^ (8 * widthBytes w) := by
  cases w
  · simp [truncTo, widthBytes]; omega
  · simp [truncTo, widthBytes]; omega
  · exact v.isLt

theorem truncTo_truncTo (w : Width) (v : Dword) : truncTo w (truncTo w v) = truncTo w v := by
  apply BitVec.eq_of_getLsbD_eq
  intro i _
  simp only [getLsbD_truncTo]
  cases decide (i < 8 * widthBytes w) <;> rfl

theorem getLsbD_withLow8 (r : Dword) (v : BitVec 8) (i : Nat) :
    (withLow8 r v).getLsbD i = if i < 8 then v.getLsbD i else r.getLsbD i := by
  unfold withLow8
  rw [BitVec.getLsbD_append]
  split
  · rfl
  · next h =>
    rw [BitVec.getLsbD_extractLsb']
    by_cases h32 : i < 32
    · simp [show i - 8 < 24 by omega, show 8 + (i - 8) = i by omega]
    · simp [show ¬ i - 8 < 24 by omega, BitVec.getLsbD_of_ge r i (by omega)]

theorem getLsbD_withLow16 (r : Dword) (v : BitVec 16) (i : Nat) :
    (withLow16 r v).getLsbD i = if i < 16 then v.getLsbD i else r.getLsbD i := by
  unfold withLow16
  rw [BitVec.getLsbD_append]
  split
  · rfl
  · next h =>
    rw [BitVec.getLsbD_extractLsb']
    by_cases h32 : i < 32
    · simp [show i - 16 < 16 by omega, show 16 + (i - 16) = i by omega]
    · simp [show ¬ i - 16 < 16 by omega, BitVec.getLsbD_of_ge r i (by omega)]

theorem getLsbD_mask_FF (i : Nat) : (0x000000FF : Dword).getLsbD i = decide (i < 8) := by
  by_cases h : i < 32
  · interval_cases i <;> rfl
  · rw [BitVec.getLsbD_of_ge _ _ (by omega)]; simp; omega

theorem getLsbD_mask_FFFF (i : Nat) : (0x0000FFFF : Dword).getLsbD i = decide (i < 16) := by
  by_cases h : i < 32
  · interval_cases i <;> rfl
  · rw [BitVec.getLsbD_of_ge _ _ (by omega)]; simp; omega

theorem getLsbD_mask_FFFFFF00 (i : Nat) : (0xFFFFFF00 : Dword).getLsbD i = decide (8 ≤ i ∧ i < 32) := by
  by_cases h : i < 32
  · interval_cases i <;> rfl
  · rw [BitVec.getLsbD_of_ge _ _ (by omega)]; simp; omega

theorem getLsbD_mask_FFFF0000 (i : Nat) : (0xFFFF0000 : Dword).getLsbD i = decide (16 ≤ i ∧ i < 32) := by
  by_cases h : i < 32
  · interval_cases i <;> rfl
  · rw [BitVec.getLsbD_of_ge _ _ (by omega)]; simp; omega

/-- A write of AL, as a mask: EAX[31:8] stays (spec/10 R10). -/
theorem withLow8_eq_mask (r v : Dword) : withLow8 r (v.setWidth 8) = (r &&& 0xFFFFFF00) ||| (v &&& 0x000000FF) := by
  apply BitVec.eq_of_getLsbD_eq
  intro i hi
  rw [getLsbD_withLow8, BitVec.getLsbD_or, BitVec.getLsbD_and, BitVec.getLsbD_and, getLsbD_mask_FFFFFF00, getLsbD_mask_FF,
    BitVec.getLsbD_setWidth]
  by_cases h : i < 8 <;> simp [h, hi] <;> omega

/-- A write of a 16-bit register, as a mask: the upper half stays (spec/10 R10 to R13). -/
theorem withLow16_eq_mask (r v : Dword) :
    withLow16 r (v.setWidth 16) = (r &&& 0xFFFF0000) ||| (v &&& 0x0000FFFF) := by
  apply BitVec.eq_of_getLsbD_eq
  intro i hi
  rw [getLsbD_withLow16, BitVec.getLsbD_or, BitVec.getLsbD_and, BitVec.getLsbD_and, getLsbD_mask_FFFF0000,
    getLsbD_mask_FFFF, BitVec.getLsbD_setWidth]
  by_cases h : i < 16 <;> simp [h, hi] <;> omega

theorem sizedValue_eq_offsetOf (z : Size) (r : Dword) : sizedValue z r = offsetOf z r := by
  cases z
  · apply BitVec.eq_of_getLsbD_eq
    intro i hi
    simp only [sizedValue, offsetOf, BitVec.getLsbD_and, getLsbD_mask_FFFF, BitVec.getLsbD_setWidth]
    by_cases h : i < 16 <;> simp [h, hi]
  · rfl

/-- The step of an index register is its move by the element size (spec/41 R122). -/
theorem stepIndex_eq_indexMoved (z : Size) (df : Bool) (w : Width) (r : Dword) :
    stepIndex z df w r = indexMoved z df (widthBytes w) r := by
  cases z <;> cases df <;> simp only [stepIndex, indexMoved, ite_true, Bool.false_eq_true, ite_false]
  · rw [← withLow16_eq_mask, BitVec.setWidth_add _ _ (by decide)]
    congr 2
    cases w <;> rfl
  · rw [← withLow16_eq_mask]
    congr 1
    apply BitVec.eq_of_toNat_eq
    cases w <;> simp [BitVec.toNat_sub, widthBytes] <;> omega

theorem getLsbD_mergeBits (mask old new : Dword) (i : Nat) :
    (mergeBits mask old new).getLsbD i = if mask.getLsbD i then new.getLsbD i else old.getLsbD i := by
  unfold mergeBits
  rw [BitVec.getLsbD_or, BitVec.getLsbD_and, BitVec.getLsbD_and, BitVec.getLsbD_not]
  by_cases h : i < 32
  · cases mask.getLsbD i <;> simp [h]
  · simp [h, BitVec.getLsbD_of_ge _ i (show 32 ≤ i by omega)]

theorem getLsbD_ifMask (i : Nat) : ifMask.getLsbD i = decide (i = 9) := by
  by_cases h : i < 32
  · interval_cases i <;> rfl
  · rw [BitVec.getLsbD_of_ge _ _ (by omega)]; simp; omega

theorem getLsbD_dfMask (i : Nat) : dfMask.getLsbD i = decide (i = 10) := by
  by_cases h : i < 32
  · interval_cases i <;> rfl
  · rw [BitVec.getLsbD_of_ge _ _ (by omega)]; simp; omega

theorem getLsbD_ioplMask (i : Nat) : ioplMask.getLsbD i = decide (i = 12 ∨ i = 13) := by
  by_cases h : i < 32
  · interval_cases i <;> rfl
  · rw [BitVec.getLsbD_of_ge _ _ (by omega)]; simp; omega

/-- The bits of EFLAGS that POPF writes (spec/42 R143 to R145). -/
theorem getLsbD_popfMask (s : State) (i : Nat) :
    (popfMask s).getLsbD i =
      (decide (i = 10) || (popfLoadsIopl s && decide (i = 12 ∨ i = 13)) || (popfLoadsIf s && decide (i = 9))) := by
  unfold popfMask
  rw [BitVec.getLsbD_or, BitVec.getLsbD_or, getLsbD_dfMask]
  cases popfLoadsIopl s <;> cases popfLoadsIf s <;> simp [getLsbD_ifMask, getLsbD_ioplMask]

/-- IOPL is its two bits. -/
theorem iopl_eq_bits (s : State) :
    iopl s = (if s.eflags.getLsbD 12 then 1 else 0) + (if s.eflags.getLsbD 13 then 2 else 0) := by
  have h : ∀ v : BitVec 2, v.toNat = (if v.getLsbD 0 then 1 else 0) + (if v.getLsbD 1 then 2 else 0) := by decide
  unfold iopl
  rw [h, BitVec.getLsbD_extractLsb', BitVec.getLsbD_extractLsb']
  simp

theorem iopl_congr {s t : State} (h12 : t.eflags.getLsbD 12 = s.eflags.getLsbD 12)
    (h13 : t.eflags.getLsbD 13 = s.eflags.getLsbD 13) : iopl t = iopl s := by
  rw [iopl_eq_bits, iopl_eq_bits, h12, h13]

/-- The mode depends on CR0.PE and VM only (spec/10 R24). -/
theorem mode_congr {s t : State} (hp : t.cr0Pe = s.cr0Pe) (hv : t.eflags.getLsbD 17 = s.eflags.getLsbD 17) :
    mode t = mode s := by
  unfold mode vmFlag; rw [hp, hv]

theorem cpl_congr {s t : State} (hm : mode t = mode s) (hc : t.cs = s.cs) : cpl t = cpl s := by
  unfold cpl; rw [hm, hc]

/-- After CLI only bit 9 of EFLAGS can differ. -/
theorem getLsbD_clearIf (s : State) (i : Nat) :
    (clearIf s).eflags.getLsbD i = (decide (i ≠ 9) && s.eflags.getLsbD i) := by
  show (mergeBits _ _ _).getLsbD i = _
  rw [getLsbD_mergeBits, getLsbD_ifMask]
  by_cases h : i = 9 <;> simp [h]

/-- After STI only bit 9 of EFLAGS can differ. -/
theorem getLsbD_setIf (s : State) (i : Nat) :
    (setIf s).eflags.getLsbD i = (decide (i = 9) || s.eflags.getLsbD i) := by
  show (mergeBits _ _ _).getLsbD i = _
  rw [getLsbD_mergeBits, getLsbD_ifMask]
  by_cases h : i = 9 <;> simp [h]

/-- After POPF only the bits of its mask can differ. -/
theorem getLsbD_loadFlags (img : Dword) (s : State) (i : Nat) :
    (loadFlags img s).eflags.getLsbD i = if (popfMask s).getLsbD i then img.getLsbD i else s.eflags.getLsbD i :=
  getLsbD_mergeBits _ _ _ _

end Sys2Proof.Machine
end

