-- ==== Sys2Proof/Laws/State.lean ====
section
/-! SUPPORT. What each named update of State does to each field, so that no proof unfolds a record update. -/

namespace Sys2Proof.Machine

@[simp] theorem setEax_eax (s : State) (v : Dword) : (s.setEax v).eax = v := rfl
@[simp] theorem setEax_ecx (s : State) (v : Dword) : (s.setEax v).ecx = s.ecx := rfl
@[simp] theorem setEax_edx (s : State) (v : Dword) : (s.setEax v).edx = s.edx := rfl
@[simp] theorem setEax_esi (s : State) (v : Dword) : (s.setEax v).esi = s.esi := rfl
@[simp] theorem setEax_edi (s : State) (v : Dword) : (s.setEax v).edi = s.edi := rfl
@[simp] theorem setEax_pc (s : State) (v : Dword) : (s.setEax v).pc = s.pc := rfl
@[simp] theorem setEax_eflags (s : State) (v : Dword) : (s.setEax v).eflags = s.eflags := rfl
@[simp] theorem setEax_cr0Pe (s : State) (v : Dword) : (s.setEax v).cr0Pe = s.cr0Pe := rfl
@[simp] theorem setEax_cs (s : State) (v : Dword) : (s.setEax v).cs = s.cs := rfl
@[simp] theorem setEax_ss (s : State) (v : Dword) : (s.setEax v).ss = s.ss := rfl
@[simp] theorem setEax_ds (s : State) (v : Dword) : (s.setEax v).ds = s.ds := rfl
@[simp] theorem setEax_es (s : State) (v : Dword) : (s.setEax v).es = s.es := rfl
@[simp] theorem setEax_fs (s : State) (v : Dword) : (s.setEax v).fs = s.fs := rfl
@[simp] theorem setEax_gs (s : State) (v : Dword) : (s.setEax v).gs = s.gs := rfl
@[simp] theorem setEax_tss (s : State) (v : Dword) : (s.setEax v).tss = s.tss := rfl
@[simp] theorem setEax_params (s : State) (v : Dword) : (s.setEax v).params = s.params := rfl
@[simp] theorem setEax_mem (s : State) (v : Dword) : (s.setEax v).mem = s.mem := rfl
@[simp] theorem setEax_text (s : State) (v : Dword) : (s.setEax v).text = s.text := rfl
@[simp] theorem setEax_history (s : State) (v : Dword) : (s.setEax v).history = s.history := rfl
@[simp] theorem setEax_portAnswers (s : State) (v : Dword) : (s.setEax v).portAnswers = s.portAnswers := rfl
@[simp] theorem setEax_popImages (s : State) (v : Dword) : (s.setEax v).popImages = s.popImages := rfl
@[simp] theorem setEax_popfDraws (s : State) (v : Dword) : (s.setEax v).popfDraws = s.popfDraws := rfl
@[simp] theorem setEax_segReg (s : State) (v : Dword) (g : Seg) : (s.setEax v).segReg g = s.segReg g := by cases g <;> rfl

@[simp] theorem setEcx_eax (s : State) (v : Dword) : (s.setEcx v).eax = s.eax := rfl
@[simp] theorem setEcx_ecx (s : State) (v : Dword) : (s.setEcx v).ecx = v := rfl
@[simp] theorem setEcx_edx (s : State) (v : Dword) : (s.setEcx v).edx = s.edx := rfl
@[simp] theorem setEcx_esi (s : State) (v : Dword) : (s.setEcx v).esi = s.esi := rfl
@[simp] theorem setEcx_edi (s : State) (v : Dword) : (s.setEcx v).edi = s.edi := rfl
@[simp] theorem setEcx_pc (s : State) (v : Dword) : (s.setEcx v).pc = s.pc := rfl
@[simp] theorem setEcx_eflags (s : State) (v : Dword) : (s.setEcx v).eflags = s.eflags := rfl
@[simp] theorem setEcx_cr0Pe (s : State) (v : Dword) : (s.setEcx v).cr0Pe = s.cr0Pe := rfl
@[simp] theorem setEcx_cs (s : State) (v : Dword) : (s.setEcx v).cs = s.cs := rfl
@[simp] theorem setEcx_ss (s : State) (v : Dword) : (s.setEcx v).ss = s.ss := rfl
@[simp] theorem setEcx_ds (s : State) (v : Dword) : (s.setEcx v).ds = s.ds := rfl
@[simp] theorem setEcx_es (s : State) (v : Dword) : (s.setEcx v).es = s.es := rfl
@[simp] theorem setEcx_fs (s : State) (v : Dword) : (s.setEcx v).fs = s.fs := rfl
@[simp] theorem setEcx_gs (s : State) (v : Dword) : (s.setEcx v).gs = s.gs := rfl
@[simp] theorem setEcx_tss (s : State) (v : Dword) : (s.setEcx v).tss = s.tss := rfl
@[simp] theorem setEcx_params (s : State) (v : Dword) : (s.setEcx v).params = s.params := rfl
@[simp] theorem setEcx_mem (s : State) (v : Dword) : (s.setEcx v).mem = s.mem := rfl
@[simp] theorem setEcx_text (s : State) (v : Dword) : (s.setEcx v).text = s.text := rfl
@[simp] theorem setEcx_history (s : State) (v : Dword) : (s.setEcx v).history = s.history := rfl
@[simp] theorem setEcx_portAnswers (s : State) (v : Dword) : (s.setEcx v).portAnswers = s.portAnswers := rfl
@[simp] theorem setEcx_popImages (s : State) (v : Dword) : (s.setEcx v).popImages = s.popImages := rfl
@[simp] theorem setEcx_popfDraws (s : State) (v : Dword) : (s.setEcx v).popfDraws = s.popfDraws := rfl
@[simp] theorem setEcx_segReg (s : State) (v : Dword) (g : Seg) : (s.setEcx v).segReg g = s.segReg g := by cases g <;> rfl

@[simp] theorem setEsi_eax (s : State) (v : Dword) : (s.setEsi v).eax = s.eax := rfl
@[simp] theorem setEsi_ecx (s : State) (v : Dword) : (s.setEsi v).ecx = s.ecx := rfl
@[simp] theorem setEsi_edx (s : State) (v : Dword) : (s.setEsi v).edx = s.edx := rfl
@[simp] theorem setEsi_esi (s : State) (v : Dword) : (s.setEsi v).esi = v := rfl
@[simp] theorem setEsi_edi (s : State) (v : Dword) : (s.setEsi v).edi = s.edi := rfl
@[simp] theorem setEsi_pc (s : State) (v : Dword) : (s.setEsi v).pc = s.pc := rfl
@[simp] theorem setEsi_eflags (s : State) (v : Dword) : (s.setEsi v).eflags = s.eflags := rfl
@[simp] theorem setEsi_cr0Pe (s : State) (v : Dword) : (s.setEsi v).cr0Pe = s.cr0Pe := rfl
@[simp] theorem setEsi_cs (s : State) (v : Dword) : (s.setEsi v).cs = s.cs := rfl
@[simp] theorem setEsi_ss (s : State) (v : Dword) : (s.setEsi v).ss = s.ss := rfl
@[simp] theorem setEsi_ds (s : State) (v : Dword) : (s.setEsi v).ds = s.ds := rfl
@[simp] theorem setEsi_es (s : State) (v : Dword) : (s.setEsi v).es = s.es := rfl
@[simp] theorem setEsi_fs (s : State) (v : Dword) : (s.setEsi v).fs = s.fs := rfl
@[simp] theorem setEsi_gs (s : State) (v : Dword) : (s.setEsi v).gs = s.gs := rfl
@[simp] theorem setEsi_tss (s : State) (v : Dword) : (s.setEsi v).tss = s.tss := rfl
@[simp] theorem setEsi_params (s : State) (v : Dword) : (s.setEsi v).params = s.params := rfl
@[simp] theorem setEsi_mem (s : State) (v : Dword) : (s.setEsi v).mem = s.mem := rfl
@[simp] theorem setEsi_text (s : State) (v : Dword) : (s.setEsi v).text = s.text := rfl
@[simp] theorem setEsi_history (s : State) (v : Dword) : (s.setEsi v).history = s.history := rfl
@[simp] theorem setEsi_portAnswers (s : State) (v : Dword) : (s.setEsi v).portAnswers = s.portAnswers := rfl
@[simp] theorem setEsi_popImages (s : State) (v : Dword) : (s.setEsi v).popImages = s.popImages := rfl
@[simp] theorem setEsi_popfDraws (s : State) (v : Dword) : (s.setEsi v).popfDraws = s.popfDraws := rfl
@[simp] theorem setEsi_segReg (s : State) (v : Dword) (g : Seg) : (s.setEsi v).segReg g = s.segReg g := by cases g <;> rfl

@[simp] theorem setEdi_eax (s : State) (v : Dword) : (s.setEdi v).eax = s.eax := rfl
@[simp] theorem setEdi_ecx (s : State) (v : Dword) : (s.setEdi v).ecx = s.ecx := rfl
@[simp] theorem setEdi_edx (s : State) (v : Dword) : (s.setEdi v).edx = s.edx := rfl
@[simp] theorem setEdi_esi (s : State) (v : Dword) : (s.setEdi v).esi = s.esi := rfl
@[simp] theorem setEdi_edi (s : State) (v : Dword) : (s.setEdi v).edi = v := rfl
@[simp] theorem setEdi_pc (s : State) (v : Dword) : (s.setEdi v).pc = s.pc := rfl
@[simp] theorem setEdi_eflags (s : State) (v : Dword) : (s.setEdi v).eflags = s.eflags := rfl
@[simp] theorem setEdi_cr0Pe (s : State) (v : Dword) : (s.setEdi v).cr0Pe = s.cr0Pe := rfl
@[simp] theorem setEdi_cs (s : State) (v : Dword) : (s.setEdi v).cs = s.cs := rfl
@[simp] theorem setEdi_ss (s : State) (v : Dword) : (s.setEdi v).ss = s.ss := rfl
@[simp] theorem setEdi_ds (s : State) (v : Dword) : (s.setEdi v).ds = s.ds := rfl
@[simp] theorem setEdi_es (s : State) (v : Dword) : (s.setEdi v).es = s.es := rfl
@[simp] theorem setEdi_fs (s : State) (v : Dword) : (s.setEdi v).fs = s.fs := rfl
@[simp] theorem setEdi_gs (s : State) (v : Dword) : (s.setEdi v).gs = s.gs := rfl
@[simp] theorem setEdi_tss (s : State) (v : Dword) : (s.setEdi v).tss = s.tss := rfl
@[simp] theorem setEdi_params (s : State) (v : Dword) : (s.setEdi v).params = s.params := rfl
@[simp] theorem setEdi_mem (s : State) (v : Dword) : (s.setEdi v).mem = s.mem := rfl
@[simp] theorem setEdi_text (s : State) (v : Dword) : (s.setEdi v).text = s.text := rfl
@[simp] theorem setEdi_history (s : State) (v : Dword) : (s.setEdi v).history = s.history := rfl
@[simp] theorem setEdi_portAnswers (s : State) (v : Dword) : (s.setEdi v).portAnswers = s.portAnswers := rfl
@[simp] theorem setEdi_popImages (s : State) (v : Dword) : (s.setEdi v).popImages = s.popImages := rfl
@[simp] theorem setEdi_popfDraws (s : State) (v : Dword) : (s.setEdi v).popfDraws = s.popfDraws := rfl
@[simp] theorem setEdi_segReg (s : State) (v : Dword) (g : Seg) : (s.setEdi v).segReg g = s.segReg g := by cases g <;> rfl

@[simp] theorem setPc_eax (s : State) (v : Dword) : (s.setPc v).eax = s.eax := rfl
@[simp] theorem setPc_ecx (s : State) (v : Dword) : (s.setPc v).ecx = s.ecx := rfl
@[simp] theorem setPc_edx (s : State) (v : Dword) : (s.setPc v).edx = s.edx := rfl
@[simp] theorem setPc_esi (s : State) (v : Dword) : (s.setPc v).esi = s.esi := rfl
@[simp] theorem setPc_edi (s : State) (v : Dword) : (s.setPc v).edi = s.edi := rfl
@[simp] theorem setPc_pc (s : State) (v : Dword) : (s.setPc v).pc = v := rfl
@[simp] theorem setPc_eflags (s : State) (v : Dword) : (s.setPc v).eflags = s.eflags := rfl
@[simp] theorem setPc_cr0Pe (s : State) (v : Dword) : (s.setPc v).cr0Pe = s.cr0Pe := rfl
@[simp] theorem setPc_cs (s : State) (v : Dword) : (s.setPc v).cs = s.cs := rfl
@[simp] theorem setPc_ss (s : State) (v : Dword) : (s.setPc v).ss = s.ss := rfl
@[simp] theorem setPc_ds (s : State) (v : Dword) : (s.setPc v).ds = s.ds := rfl
@[simp] theorem setPc_es (s : State) (v : Dword) : (s.setPc v).es = s.es := rfl
@[simp] theorem setPc_fs (s : State) (v : Dword) : (s.setPc v).fs = s.fs := rfl
@[simp] theorem setPc_gs (s : State) (v : Dword) : (s.setPc v).gs = s.gs := rfl
@[simp] theorem setPc_tss (s : State) (v : Dword) : (s.setPc v).tss = s.tss := rfl
@[simp] theorem setPc_params (s : State) (v : Dword) : (s.setPc v).params = s.params := rfl
@[simp] theorem setPc_mem (s : State) (v : Dword) : (s.setPc v).mem = s.mem := rfl
@[simp] theorem setPc_text (s : State) (v : Dword) : (s.setPc v).text = s.text := rfl
@[simp] theorem setPc_history (s : State) (v : Dword) : (s.setPc v).history = s.history := rfl
@[simp] theorem setPc_portAnswers (s : State) (v : Dword) : (s.setPc v).portAnswers = s.portAnswers := rfl
@[simp] theorem setPc_popImages (s : State) (v : Dword) : (s.setPc v).popImages = s.popImages := rfl
@[simp] theorem setPc_popfDraws (s : State) (v : Dword) : (s.setPc v).popfDraws = s.popfDraws := rfl
@[simp] theorem setPc_segReg (s : State) (v : Dword) (g : Seg) : (s.setPc v).segReg g = s.segReg g := by cases g <;> rfl

@[simp] theorem setEflags_eax (s : State) (v : Dword) : (s.setEflags v).eax = s.eax := rfl
@[simp] theorem setEflags_ecx (s : State) (v : Dword) : (s.setEflags v).ecx = s.ecx := rfl
@[simp] theorem setEflags_edx (s : State) (v : Dword) : (s.setEflags v).edx = s.edx := rfl
@[simp] theorem setEflags_esi (s : State) (v : Dword) : (s.setEflags v).esi = s.esi := rfl
@[simp] theorem setEflags_edi (s : State) (v : Dword) : (s.setEflags v).edi = s.edi := rfl
@[simp] theorem setEflags_pc (s : State) (v : Dword) : (s.setEflags v).pc = s.pc := rfl
@[simp] theorem setEflags_eflags (s : State) (v : Dword) : (s.setEflags v).eflags = v := rfl
@[simp] theorem setEflags_cr0Pe (s : State) (v : Dword) : (s.setEflags v).cr0Pe = s.cr0Pe := rfl
@[simp] theorem setEflags_cs (s : State) (v : Dword) : (s.setEflags v).cs = s.cs := rfl
@[simp] theorem setEflags_ss (s : State) (v : Dword) : (s.setEflags v).ss = s.ss := rfl
@[simp] theorem setEflags_ds (s : State) (v : Dword) : (s.setEflags v).ds = s.ds := rfl
@[simp] theorem setEflags_es (s : State) (v : Dword) : (s.setEflags v).es = s.es := rfl
@[simp] theorem setEflags_fs (s : State) (v : Dword) : (s.setEflags v).fs = s.fs := rfl
@[simp] theorem setEflags_gs (s : State) (v : Dword) : (s.setEflags v).gs = s.gs := rfl
@[simp] theorem setEflags_tss (s : State) (v : Dword) : (s.setEflags v).tss = s.tss := rfl
@[simp] theorem setEflags_params (s : State) (v : Dword) : (s.setEflags v).params = s.params := rfl
@[simp] theorem setEflags_mem (s : State) (v : Dword) : (s.setEflags v).mem = s.mem := rfl
@[simp] theorem setEflags_text (s : State) (v : Dword) : (s.setEflags v).text = s.text := rfl
@[simp] theorem setEflags_history (s : State) (v : Dword) : (s.setEflags v).history = s.history := rfl
@[simp] theorem setEflags_portAnswers (s : State) (v : Dword) : (s.setEflags v).portAnswers = s.portAnswers := rfl
@[simp] theorem setEflags_popImages (s : State) (v : Dword) : (s.setEflags v).popImages = s.popImages := rfl
@[simp] theorem setEflags_popfDraws (s : State) (v : Dword) : (s.setEflags v).popfDraws = s.popfDraws := rfl
@[simp] theorem setEflags_segReg (s : State) (v : Dword) (g : Seg) : (s.setEflags v).segReg g = s.segReg g := by cases g <;> rfl

@[simp] theorem setMem_eax (s : State) (m : Memory) : (s.setMem m).eax = s.eax := rfl
@[simp] theorem setMem_ecx (s : State) (m : Memory) : (s.setMem m).ecx = s.ecx := rfl
@[simp] theorem setMem_edx (s : State) (m : Memory) : (s.setMem m).edx = s.edx := rfl
@[simp] theorem setMem_esi (s : State) (m : Memory) : (s.setMem m).esi = s.esi := rfl
@[simp] theorem setMem_edi (s : State) (m : Memory) : (s.setMem m).edi = s.edi := rfl
@[simp] theorem setMem_pc (s : State) (m : Memory) : (s.setMem m).pc = s.pc := rfl
@[simp] theorem setMem_eflags (s : State) (m : Memory) : (s.setMem m).eflags = s.eflags := rfl
@[simp] theorem setMem_cr0Pe (s : State) (m : Memory) : (s.setMem m).cr0Pe = s.cr0Pe := rfl
@[simp] theorem setMem_cs (s : State) (m : Memory) : (s.setMem m).cs = s.cs := rfl
@[simp] theorem setMem_ss (s : State) (m : Memory) : (s.setMem m).ss = s.ss := rfl
@[simp] theorem setMem_ds (s : State) (m : Memory) : (s.setMem m).ds = s.ds := rfl
@[simp] theorem setMem_es (s : State) (m : Memory) : (s.setMem m).es = s.es := rfl
@[simp] theorem setMem_fs (s : State) (m : Memory) : (s.setMem m).fs = s.fs := rfl
@[simp] theorem setMem_gs (s : State) (m : Memory) : (s.setMem m).gs = s.gs := rfl
@[simp] theorem setMem_tss (s : State) (m : Memory) : (s.setMem m).tss = s.tss := rfl
@[simp] theorem setMem_params (s : State) (m : Memory) : (s.setMem m).params = s.params := rfl
@[simp] theorem setMem_mem (s : State) (m : Memory) : (s.setMem m).mem = m := rfl
@[simp] theorem setMem_text (s : State) (m : Memory) : (s.setMem m).text = s.text := rfl
@[simp] theorem setMem_history (s : State) (m : Memory) : (s.setMem m).history = s.history := rfl
@[simp] theorem setMem_portAnswers (s : State) (m : Memory) : (s.setMem m).portAnswers = s.portAnswers := rfl
@[simp] theorem setMem_popImages (s : State) (m : Memory) : (s.setMem m).popImages = s.popImages := rfl
@[simp] theorem setMem_popfDraws (s : State) (m : Memory) : (s.setMem m).popfDraws = s.popfDraws := rfl
@[simp] theorem setMem_segReg (s : State) (m : Memory) (g : Seg) : (s.setMem m).segReg g = s.segReg g := by cases g <;> rfl

@[simp] theorem setText_eax (s : State) (t : ProgramText) : (s.setText t).eax = s.eax := rfl
@[simp] theorem setText_ecx (s : State) (t : ProgramText) : (s.setText t).ecx = s.ecx := rfl
@[simp] theorem setText_edx (s : State) (t : ProgramText) : (s.setText t).edx = s.edx := rfl
@[simp] theorem setText_esi (s : State) (t : ProgramText) : (s.setText t).esi = s.esi := rfl
@[simp] theorem setText_edi (s : State) (t : ProgramText) : (s.setText t).edi = s.edi := rfl
@[simp] theorem setText_pc (s : State) (t : ProgramText) : (s.setText t).pc = s.pc := rfl
@[simp] theorem setText_eflags (s : State) (t : ProgramText) : (s.setText t).eflags = s.eflags := rfl
@[simp] theorem setText_cr0Pe (s : State) (t : ProgramText) : (s.setText t).cr0Pe = s.cr0Pe := rfl
@[simp] theorem setText_cs (s : State) (t : ProgramText) : (s.setText t).cs = s.cs := rfl
@[simp] theorem setText_ss (s : State) (t : ProgramText) : (s.setText t).ss = s.ss := rfl
@[simp] theorem setText_ds (s : State) (t : ProgramText) : (s.setText t).ds = s.ds := rfl
@[simp] theorem setText_es (s : State) (t : ProgramText) : (s.setText t).es = s.es := rfl
@[simp] theorem setText_fs (s : State) (t : ProgramText) : (s.setText t).fs = s.fs := rfl
@[simp] theorem setText_gs (s : State) (t : ProgramText) : (s.setText t).gs = s.gs := rfl
@[simp] theorem setText_tss (s : State) (t : ProgramText) : (s.setText t).tss = s.tss := rfl
@[simp] theorem setText_params (s : State) (t : ProgramText) : (s.setText t).params = s.params := rfl
@[simp] theorem setText_mem (s : State) (t : ProgramText) : (s.setText t).mem = s.mem := rfl
@[simp] theorem setText_text (s : State) (t : ProgramText) : (s.setText t).text = t := rfl
@[simp] theorem setText_history (s : State) (t : ProgramText) : (s.setText t).history = s.history := rfl
@[simp] theorem setText_portAnswers (s : State) (t : ProgramText) : (s.setText t).portAnswers = s.portAnswers := rfl
@[simp] theorem setText_popImages (s : State) (t : ProgramText) : (s.setText t).popImages = s.popImages := rfl
@[simp] theorem setText_popfDraws (s : State) (t : ProgramText) : (s.setText t).popfDraws = s.popfDraws := rfl
@[simp] theorem setText_segReg (s : State) (t : ProgramText) (g : Seg) : (s.setText t).segReg g = s.segReg g := by cases g <;> rfl

@[simp] theorem logIo_eax (s : State) (e : IoEvent) : (s.logIo e).eax = s.eax := rfl
@[simp] theorem logIo_ecx (s : State) (e : IoEvent) : (s.logIo e).ecx = s.ecx := rfl
@[simp] theorem logIo_edx (s : State) (e : IoEvent) : (s.logIo e).edx = s.edx := rfl
@[simp] theorem logIo_esi (s : State) (e : IoEvent) : (s.logIo e).esi = s.esi := rfl
@[simp] theorem logIo_edi (s : State) (e : IoEvent) : (s.logIo e).edi = s.edi := rfl
@[simp] theorem logIo_pc (s : State) (e : IoEvent) : (s.logIo e).pc = s.pc := rfl
@[simp] theorem logIo_eflags (s : State) (e : IoEvent) : (s.logIo e).eflags = s.eflags := rfl
@[simp] theorem logIo_cr0Pe (s : State) (e : IoEvent) : (s.logIo e).cr0Pe = s.cr0Pe := rfl
@[simp] theorem logIo_cs (s : State) (e : IoEvent) : (s.logIo e).cs = s.cs := rfl
@[simp] theorem logIo_ss (s : State) (e : IoEvent) : (s.logIo e).ss = s.ss := rfl
@[simp] theorem logIo_ds (s : State) (e : IoEvent) : (s.logIo e).ds = s.ds := rfl
@[simp] theorem logIo_es (s : State) (e : IoEvent) : (s.logIo e).es = s.es := rfl
@[simp] theorem logIo_fs (s : State) (e : IoEvent) : (s.logIo e).fs = s.fs := rfl
@[simp] theorem logIo_gs (s : State) (e : IoEvent) : (s.logIo e).gs = s.gs := rfl
@[simp] theorem logIo_tss (s : State) (e : IoEvent) : (s.logIo e).tss = s.tss := rfl
@[simp] theorem logIo_params (s : State) (e : IoEvent) : (s.logIo e).params = s.params := rfl
@[simp] theorem logIo_mem (s : State) (e : IoEvent) : (s.logIo e).mem = s.mem := rfl
@[simp] theorem logIo_text (s : State) (e : IoEvent) : (s.logIo e).text = s.text := rfl
@[simp] theorem logIo_history (s : State) (e : IoEvent) : (s.logIo e).history = s.history ++ [e] := rfl
@[simp] theorem logIo_portAnswers (s : State) (e : IoEvent) : (s.logIo e).portAnswers = s.portAnswers := rfl
@[simp] theorem logIo_popImages (s : State) (e : IoEvent) : (s.logIo e).popImages = s.popImages := rfl
@[simp] theorem logIo_popfDraws (s : State) (e : IoEvent) : (s.logIo e).popfDraws = s.popfDraws := rfl
@[simp] theorem logIo_segReg (s : State) (e : IoEvent) (g : Seg) : (s.logIo e).segReg g = s.segReg g := by cases g <;> rfl

@[simp] theorem dropAnswer_eax (s : State) : (s.dropAnswer).eax = s.eax := rfl
@[simp] theorem dropAnswer_ecx (s : State) : (s.dropAnswer).ecx = s.ecx := rfl
@[simp] theorem dropAnswer_edx (s : State) : (s.dropAnswer).edx = s.edx := rfl
@[simp] theorem dropAnswer_esi (s : State) : (s.dropAnswer).esi = s.esi := rfl
@[simp] theorem dropAnswer_edi (s : State) : (s.dropAnswer).edi = s.edi := rfl
@[simp] theorem dropAnswer_pc (s : State) : (s.dropAnswer).pc = s.pc := rfl
@[simp] theorem dropAnswer_eflags (s : State) : (s.dropAnswer).eflags = s.eflags := rfl
@[simp] theorem dropAnswer_cr0Pe (s : State) : (s.dropAnswer).cr0Pe = s.cr0Pe := rfl
@[simp] theorem dropAnswer_cs (s : State) : (s.dropAnswer).cs = s.cs := rfl
@[simp] theorem dropAnswer_ss (s : State) : (s.dropAnswer).ss = s.ss := rfl
@[simp] theorem dropAnswer_ds (s : State) : (s.dropAnswer).ds = s.ds := rfl
@[simp] theorem dropAnswer_es (s : State) : (s.dropAnswer).es = s.es := rfl
@[simp] theorem dropAnswer_fs (s : State) : (s.dropAnswer).fs = s.fs := rfl
@[simp] theorem dropAnswer_gs (s : State) : (s.dropAnswer).gs = s.gs := rfl
@[simp] theorem dropAnswer_tss (s : State) : (s.dropAnswer).tss = s.tss := rfl
@[simp] theorem dropAnswer_params (s : State) : (s.dropAnswer).params = s.params := rfl
@[simp] theorem dropAnswer_mem (s : State) : (s.dropAnswer).mem = s.mem := rfl
@[simp] theorem dropAnswer_text (s : State) : (s.dropAnswer).text = s.text := rfl
@[simp] theorem dropAnswer_history (s : State) : (s.dropAnswer).history = s.history := rfl
@[simp] theorem dropAnswer_portAnswers (s : State) : (s.dropAnswer).portAnswers = s.portAnswers.tail := rfl
@[simp] theorem dropAnswer_popImages (s : State) : (s.dropAnswer).popImages = s.popImages := rfl
@[simp] theorem dropAnswer_popfDraws (s : State) : (s.dropAnswer).popfDraws = s.popfDraws := rfl
@[simp] theorem dropAnswer_segReg (s : State) (g : Seg) : (s.dropAnswer).segReg g = s.segReg g := by cases g <;> rfl

@[simp] theorem dropImage_eax (s : State) : (s.dropImage).eax = s.eax := rfl
@[simp] theorem dropImage_ecx (s : State) : (s.dropImage).ecx = s.ecx := rfl
@[simp] theorem dropImage_edx (s : State) : (s.dropImage).edx = s.edx := rfl
@[simp] theorem dropImage_esi (s : State) : (s.dropImage).esi = s.esi := rfl
@[simp] theorem dropImage_edi (s : State) : (s.dropImage).edi = s.edi := rfl
@[simp] theorem dropImage_pc (s : State) : (s.dropImage).pc = s.pc := rfl
@[simp] theorem dropImage_eflags (s : State) : (s.dropImage).eflags = s.eflags := rfl
@[simp] theorem dropImage_cr0Pe (s : State) : (s.dropImage).cr0Pe = s.cr0Pe := rfl
@[simp] theorem dropImage_cs (s : State) : (s.dropImage).cs = s.cs := rfl
@[simp] theorem dropImage_ss (s : State) : (s.dropImage).ss = s.ss := rfl
@[simp] theorem dropImage_ds (s : State) : (s.dropImage).ds = s.ds := rfl
@[simp] theorem dropImage_es (s : State) : (s.dropImage).es = s.es := rfl
@[simp] theorem dropImage_fs (s : State) : (s.dropImage).fs = s.fs := rfl
@[simp] theorem dropImage_gs (s : State) : (s.dropImage).gs = s.gs := rfl
@[simp] theorem dropImage_tss (s : State) : (s.dropImage).tss = s.tss := rfl
@[simp] theorem dropImage_params (s : State) : (s.dropImage).params = s.params := rfl
@[simp] theorem dropImage_mem (s : State) : (s.dropImage).mem = s.mem := rfl
@[simp] theorem dropImage_text (s : State) : (s.dropImage).text = s.text := rfl
@[simp] theorem dropImage_history (s : State) : (s.dropImage).history = s.history := rfl
@[simp] theorem dropImage_portAnswers (s : State) : (s.dropImage).portAnswers = s.portAnswers := rfl
@[simp] theorem dropImage_popImages (s : State) : (s.dropImage).popImages = s.popImages.tail := rfl
@[simp] theorem dropImage_popfDraws (s : State) : (s.dropImage).popfDraws = s.popfDraws + 1 := rfl
@[simp] theorem dropImage_segReg (s : State) (g : Seg) : (s.dropImage).segReg g = s.segReg g := by cases g <;> rfl

end Sys2Proof.Machine
end

