-- ==== Sys2Proof/Laws/Ops.lean ====
section
/-! SUPPORT. For each shared operation, once, everything it can do. -/

namespace Sys2Proof.Machine

open Sys2Proof.Safety

/-! ## Sequencing -/

@[simp] theorem andThen_next {α β : Type} (a : α) (f : α → Result β) : andThen (.next a) f = f a := rfl
@[simp] theorem andThen_fault {α β : Type} (r : Fault) (f : α → Result β) : andThen (.fault r) f = .fault r := rfl
@[simp] theorem andThen_refused {α β : Type} (r : Refusal) (f : α → Result β) :
    andThen (.refused r) f = .refused r := rfl

theorem andThen_eq_next {α β : Type} {x : Result α} {f : α → Result β} {b : β} :
    andThen x f = .next b ↔ ∃ a, x = .next a ∧ f a = .next b := by
  cases x <;> simp

theorem andThen_eq_fault {α β : Type} {x : Result α} {f : α → Result β} {r : Fault} :
    andThen x f = .fault r ↔ x = .fault r ∨ ∃ a, x = .next a ∧ f a = .fault r := by
  cases x <;> simp

theorem raiseGP_eq {α : Type} (s : State) : (raiseGP s : Result α) = .fault (gpFault s) := rfl

theorem andThen_raiseGP {α β : Type} (s : State) (f : α → Result β) : andThen (raiseGP s) f = raiseGP s := rfl

/-! ## The program counter -/

theorem advancePc_eq_next {len : Nat} {s t : State} :
    advancePc len s = .next t ↔ PcFits len s ∧ t = s.setPc (s.pc + BitVec.ofNat 32 len) := by
  unfold advancePc PcFits
  split
  · next h => simp [h, eq_comm]
  · next h => simp [h]

theorem advancePc_of_fits {len : Nat} {s : State} (h : PcFits len s) :
    advancePc len s = .next (s.setPc (s.pc + BitVec.ofNat 32 len)) := if_pos h

theorem advancePc_of_not_fits {len : Nat} {s : State} (h : ¬ PcFits len s) : advancePc len s = .refused .pcPastTop :=
  if_neg h

theorem advancePc_ne_fault (len : Nat) (s : State) (r : Fault) : advancePc len s ≠ .fault r := by
  unfold advancePc; split <;> simp

/-- An advance that stays in the segment does not wrap. -/
theorem toNat_pc_add {len : Nat} {s : State} (h : PcFits len s) :
    (s.pc + BitVec.ofNat 32 len).toNat = s.pc.toNat + len := by
  unfold PcFits at h
  have := s.cs.limit.isLt
  simp; omega

/-! ## Ports -/

theorem portRangeOk_iff (p : Port) (w : Width) : portRangeOk p w = true ↔ RangeOk p w := by
  have := widthBytes_pos w
  unfold portRangeOk RangeOk
  rw [decide_eq_true_iff]
  omega

theorem deviceAnswer_lt (s : State) (p : Port) (w : Width) :
    (deviceAnswer s p w).toNat < 2 ^ (8 * widthBytes w) := truncTo_lt _ _

theorem truncTo_deviceAnswer (s : State) (p : Port) (w : Width) : truncTo w (deviceAnswer s p w) = deviceAnswer s p w :=
  truncTo_truncTo _ _

theorem portRead_of_range {s : State} {p : Port} {w : Width} (h : RangeOk p w) :
    portRead s p w =
      .next (deviceAnswer s p w, (s.logIo ⟨.read, p, w, deviceAnswer s p w⟩).dropAnswer) :=
  if_pos ((portRangeOk_iff p w).2 h)

theorem portRead_eq_next {s : State} {p : Port} {w : Width} {r : Dword × State} :
    portRead s p w = .next r ↔
      RangeOk p w ∧ r = (deviceAnswer s p w, (s.logIo ⟨.read, p, w, deviceAnswer s p w⟩).dropAnswer) := by
  unfold portRead
  rw [← portRangeOk_iff]
  split
  · next h => simp [h, eq_comm]
  · next h => simp [h]

theorem portRead_ne_fault (s : State) (p : Port) (w : Width) (r : Fault) : portRead s p w ≠ .fault r := by
  unfold portRead; split <;> simp

theorem portWrite_of_range {s : State} {p : Port} {w : Width} (v : Dword) (h : RangeOk p w) :
    portWrite s p w v = .next (s.logIo ⟨.write, p, w, truncTo w v⟩) :=
  if_pos ((portRangeOk_iff p w).2 h)

theorem portWrite_eq_next {s t : State} {p : Port} {w : Width} {v : Dword} :
    portWrite s p w v = .next t ↔ RangeOk p w ∧ t = s.logIo ⟨.write, p, w, truncTo w v⟩ := by
  unfold portWrite
  rw [← portRangeOk_iff]
  split
  · next h => simp [h, eq_comm]
  · next h => simp [h]

theorem portWrite_ne_fault (s : State) (p : Port) (w : Width) (v : Dword) (r : Fault) : portWrite s p w v ≠ .fault r := by
  unfold portWrite; split <;> simp

/-! ## Memory by segment and offset -/

theorem withinLimit_iff (g : SegReg) (off : Dword) (w : Width) :
    withinLimit g off (widthBytes w) = true ↔ OffsetOk g off (widthBytes w) := by
  have := widthBytes_pos w
  unfold withinLimit OffsetOk
  rw [decide_eq_true_iff]
  omega

theorem overlapsText_eq_false_iff (s : State) (a : Dword) (n : Nat) :
    overlapsText s a n = false ↔ ∀ i < n, inText s (a + BitVec.ofNat 32 i) = false := by
  simp [overlapsText]

theorem memRead_eq_next {s : State} {g : Seg} {off : Dword} {w : Width} {v : Dword} :
    memRead s g off w = .next v ↔
      ((s.segReg g).readable = true ∧ OffsetOk (s.segReg g) off (widthBytes w)) ∧
        v = readBytes s.mem ((s.segReg g).base + off) (widthBytes w) := by
  unfold memRead
  rw [← withinLimit_iff, ← Bool.and_eq_true]
  split
  · next h => simp [h, linear, eq_comm]
  · next h => simp [h]

theorem memRead_forbidden {s : State} {g : Seg} {off : Dword} {w : Width}
    (h : ¬ ((s.segReg g).readable = true ∧ OffsetOk (s.segReg g) off (widthBytes w))) :
    memRead s g off w = .refused .memoryFault := by
  unfold memRead
  rw [if_neg (by rwa [Bool.and_eq_true, withinLimit_iff])]

theorem memRead_ne_fault (s : State) (g : Seg) (off : Dword) (w : Width) (r : Fault) : memRead s g off w ≠ .fault r := by
  unfold memRead; split <;> simp

theorem memWrite_eq_next {s t : State} {g : Seg} {off : Dword} {w : Width} {v : Dword} :
    memWrite s g off w v = .next t ↔
      ((s.segReg g).writable = true ∧ OffsetOk (s.segReg g) off (widthBytes w) ∧
        ∀ i < widthBytes w, inText s ((s.segReg g).base + off + BitVec.ofNat 32 i) = false) ∧
        t = s.setMem (writeBytes s.mem ((s.segReg g).base + off) (widthBytes w) v) := by
  have h3 := overlapsText_eq_false_iff s ((s.segReg g).base + off) (widthBytes w)
  unfold memWrite linear
  rw [← withinLimit_iff, ← h3]
  cases h1 : (s.segReg g).writable <;> cases h2 : withinLimit (s.segReg g) off (widthBytes w) <;>
    cases h4 : overlapsText s ((s.segReg g).base + off) (widthBytes w) <;> simp [eq_comm]

theorem memWrite_forbidden {s : State} {g : Seg} {off : Dword} {w : Width} (v : Dword)
    (h : ¬ ((s.segReg g).writable = true ∧ OffsetOk (s.segReg g) off (widthBytes w))) :
    memWrite s g off w v = .refused .memoryFault := by
  unfold memWrite
  rw [if_neg (by rwa [Bool.and_eq_true, withinLimit_iff])]

/-- A store that would touch the program text (spec/20 R74). -/
theorem memWrite_into_text {s : State} {g : Seg} {off : Dword} {w : Width} (v : Dword)
    (hw : (s.segReg g).writable = true) (ho : OffsetOk (s.segReg g) off (widthBytes w))
    (ht : ∃ i < widthBytes w, inText s ((s.segReg g).base + off + BitVec.ofNat 32 i) = true) :
    memWrite s g off w v = .refused .storeIntoText := by
  unfold memWrite
  rw [if_pos (by rw [Bool.and_eq_true, withinLimit_iff]; exact ⟨hw, ho⟩), if_pos]
  obtain ⟨i, hi, h⟩ := ht
  exact List.any_eq_true.2 ⟨i, List.mem_range.2 hi, h⟩

theorem memWrite_ne_fault (s : State) (g : Seg) (off : Dword) (w : Width) (v : Dword) (r : Fault) :
    memWrite s g off w v ≠ .fault r := by
  unfold memWrite; split
  · split <;> simp
  · simp

/-! ## The TSS and the permission check -/

theorem tssRead_of_limit {s : State} {off n : Nat} (hl : s.tss.loaded = true) (h : off + n - 1 ≤ s.tss.limit) :
    tssRead s off n = .next (readBytes s.mem (s.tss.base + BitVec.ofNat 32 off) n) := by
  unfold tssRead; simp [hl, h]

/-- Two bytes as one value. -/
theorem toNat_word_of_bytes (a b : Byte) :
    (((0 : Dword) <<< 8 ||| b.setWidth 32) <<< 8 ||| a.setWidth 32).toNat = a.toNat + 256 * b.toNat := by
  have e : ((0 : Dword) <<< 8 ||| b.setWidth 32) <<< 8 ||| a.setWidth 32 = BitVec.setWidth 32 (b ++ a : BitVec 16) := by
    apply BitVec.eq_of_getLsbD_eq
    intro i hi
    simp only [BitVec.getLsbD_or, BitVec.getLsbD_shiftLeft, BitVec.getLsbD_setWidth, BitVec.getLsbD_append]
    by_cases h8 : i < 8
    · simp [h8, hi]
    · have : a.getLsbD i = false := BitVec.getLsbD_of_ge _ _ (by omega)
      simp [h8, hi, this, show i - 8 < 32 by omega]
  have ha := a.isLt
  have hb := b.isLt
  rw [e, BitVec.toNat_setWidth, BitVec.toNat_append, ← Nat.shiftLeft_add_eq_or_of_lt ha, Nat.shiftLeft_eq]
  omega

theorem toNat_readBytes_two (m : Memory) (a : Dword) :
    (readBytes m a 2).toNat = (readByte m a.toNat).toNat + 256 * (readByte m (a + 1).toNat).toNat := by
  simp only [readBytes]
  exact toNat_word_of_bytes _ _

/-- The map base field as the check reads it. -/
theorem toNat_readBytes_mapBase (s : State) :
    (readBytes s.mem (s.tss.base + BitVec.ofNat 32 ioMapBaseOffset) 2).toNat = mapBase s := by
  rw [toNat_readBytes_two, dword_index_succ, mapBase, tssByte, tssByte, ioMapBaseOffset]

/-- The map byte of a port, as the check reads it. -/
theorem getLsbD_readBytes_one (s : State) (off a : Nat) :
    (readBytes s.mem (s.tss.base + BitVec.ofNat 32 off) 1).getLsbD (a % 8) = (tssByte s off).getLsbD (a % 8) := by
  have h8 : a % 8 < 8 := Nat.mod_lt _ (by decide)
  rw [getLsbD_readBytes _ _ _ _ (by decide)]
  simp [h8, tssByte, Nat.div_eq_of_lt h8]

/-- The loop of R68 answers exactly when every port tested is free, and raises GP(0) otherwise. -/
theorem testPorts_spec {s : State} (hl : s.tss.loaded = true) (k a : Nat) :
    (testPorts s (mapBase s) k a = .next () ∧ ∀ i < k, PortFree s (a + i)) ∨
      (testPorts s (mapBase s) k a = raiseGP s ∧ ¬ ∀ i < k, PortFree s (a + i)) := by
  induction k generalizing a with
  | zero => exact .inl ⟨rfl, by simp⟩
  | succ k ih =>
    unfold testPorts
    by_cases hlim : s.tss.limit < mapBase s + a / 8
    · rw [if_pos hlim]
      refine .inr ⟨rfl, fun h => ?_⟩
      have := (h 0 (by omega)).1
      simp at this; omega
    · rw [if_neg hlim, tssRead_of_limit hl (by omega), andThen_next, getLsbD_readBytes_one]
      cases hb : (tssByte s (mapBase s + a / 8)).getLsbD (a % 8)
      · have h0 : PortFree s a := ⟨by omega, hb⟩
        have step : (∀ i < k + 1, PortFree s (a + i)) ↔ ∀ i < k, PortFree s (a + 1 + i) := by
          constructor
          · intro h i hi
            have := h (i + 1) (by omega)
            rwa [show a + (i + 1) = a + 1 + i by omega] at this
          · intro h i hi
            cases i with
            | zero => exact h0
            | succ i => rw [show a + (i + 1) = a + 1 + i by omega]; exact h i (by omega)
        rw [step]
        exact ih (a + 1)
      · refine .inr ⟨rfl, fun h => ?_⟩
        have := (h 0 (by omega)).2
        simp [hb] at this

/-- The map's part of the check, on a TSS that can be read. -/
theorem mapCheck_spec {s : State} (h : TssReadable s) (p : Port) (w : Width) :
    (mapCheck s p.toNat (widthBytes w) = .next () ∧ MapPermits s p w) ∨
      (mapCheck s p.toNat (widthBytes w) = raiseGP s ∧ ¬ MapPermits s p w) := by
  obtain ⟨hl, hlim⟩ := h
  unfold mapCheck
  cases h386 : s.tss.is386
  · exact .inr ⟨by simp [hl], fun h => by simpa [h386] using h.1⟩
  · have hlim := hlim h386
    rw [tssRead_of_limit hl (by unfold ioMapBaseOffset; omega)]
    simp only [hl, Bool.not_true, Bool.false_eq_true, ite_false, andThen_next, toNat_readBytes_mapBase]
    by_cases hb : s.tss.limit ≤ mapBase s
    · rw [if_pos hb]
      exact .inr ⟨rfl, fun h => by have := h.2.1; omega⟩
    · rw [if_neg hb]
      by_cases hx : (s.params.iopbExtraByte && decide (s.tss.limit < mapBase s + p.toNat / 8 + 1)) = true
      · rw [if_pos hx]
        simp only [Bool.and_eq_true, decide_eq_true_eq] at hx
        exact .inr ⟨rfl, fun h => by have := h.2.2.1 hx.1; omega⟩
      · rw [if_neg hx]
        simp only [Bool.and_eq_true, decide_eq_true_eq, not_and, not_lt] at hx
        rcases testPorts_spec hl (widthBytes w) p.toNat with ⟨e, hf⟩ | ⟨e, hf⟩
        · exact .inl ⟨e, h386, by omega, hx, hf⟩
        · exact .inr ⟨e, fun h => hf h.2.2.2⟩

/-- The map's part of the check, on a TSS that cannot be read. -/
theorem mapCheck_unreadable {s : State} (h : ¬ TssReadable s) (p n : Nat) : mapCheck s p n = .refused .tssReadFault := by
  unfold TssReadable at h
  unfold mapCheck tssRead ioMapBaseOffset
  cases hl : s.tss.loaded
  · simp
  · simp [hl] at h
    simp [h.1, show ¬ 0x66 + 2 - 1 ≤ s.tss.limit by omega]

/-- The whole permission check, on ports that exist: it passes, raises GP(0), or is refused by an unreadable TSS. -/
theorem ioPermCheck_spec {s : State} {p : Port} {w : Width} (hr : RangeOk p w) :
    (ioPermCheck s p w = .next () ∧ IoPermitted s p w) ∨
      (ioPermCheck s p w = raiseGP s ∧ ¬ IoPermitted s p w ∧ MapConsulted s ∧ TssReadable s) ∨
      (ioPermCheck s p w = .refused .tssReadFault ∧ ¬ IoPermitted s p w ∧ MapConsulted s ∧ ¬ TssReadable s) := by
  unfold ioPermCheck
  rw [if_pos ((portRangeOk_iff p w).2 hr)]
  cases hm : mode s with
  | real => exact .inl ⟨rfl, .inl hm⟩
  | prot =>
    by_cases hc : cpl s ≤ iopl s
    · exact .inl ⟨if_pos hc, .inr (.inl ⟨hm, hc⟩)⟩
    · have hcons : MapConsulted s := .inl ⟨hm, by omega⟩
      simp only [if_neg hc]
      by_cases ht : TssReadable s
      · rcases mapCheck_spec ht p w with ⟨e, h⟩ | ⟨e, h⟩
        · exact .inl ⟨e, .inr (.inr ⟨ht, h⟩)⟩
        · refine .inr (.inl ⟨e, ?_, hcons, ht⟩)
          rintro (h' | h' | h')
          · simp [hm] at h'
          · exact hc h'.2
          · exact h h'.2
      · refine .inr (.inr ⟨mapCheck_unreadable ht _ _, ?_, hcons, ht⟩)
        rintro (h' | h' | h')
        · simp [hm] at h'
        · exact hc h'.2
        · exact ht h'.1
  | v86 =>
    have hcons : MapConsulted s := .inr hm
    by_cases ht : TssReadable s
    · rcases mapCheck_spec ht p w with ⟨e, h⟩ | ⟨e, h⟩
      · exact .inl ⟨e, .inr (.inr ⟨ht, h⟩)⟩
      · refine .inr (.inl ⟨e, ?_, hcons, ht⟩)
        rintro (h' | h' | h')
        · simp [hm] at h'
        · simp [hm] at h'
        · exact h h'.2
    · refine .inr (.inr ⟨mapCheck_unreadable ht _ _, ?_, hcons, ht⟩)
      rintro (h' | h' | h')
      · simp [hm] at h'
      · simp [hm] at h'
      · exact ht h'.1

/-- Ports past 65535: refused whatever the mode (spec/20 R49). -/
theorem ioPermCheck_out_of_range {s : State} {p : Port} {w : Width} (h : ¬ RangeOk p w) :
    ioPermCheck s p w = .refused .portRangePastTop :=
  if_neg fun h' => h ((portRangeOk_iff p w).1 h')

theorem ioPermCheck_eq_next {s : State} {p : Port} {w : Width} {u : Unit} :
    ioPermCheck s p w = .next u ↔ RangeOk p w ∧ IoPermitted s p w := by
  by_cases hr : RangeOk p w
  · rcases ioPermCheck_spec (s := s) hr with ⟨e, h⟩ | ⟨e, h, -⟩ | ⟨e, h, -⟩ <;> simp [e, h, hr, raiseGP]
  · simp [ioPermCheck_out_of_range hr, hr]

theorem ioPermCheck_eq_fault {s : State} {p : Port} {w : Width} {r : Fault} :
    ioPermCheck s p w = .fault r ↔
      r = gpFault s ∧ RangeOk p w ∧ ¬ IoPermitted s p w ∧ MapConsulted s ∧ TssReadable s := by
  by_cases hr : RangeOk p w
  · rcases ioPermCheck_spec (s := s) hr with ⟨e, h⟩ | ⟨e, h⟩ | ⟨e, h⟩
    · simp [e, h]
    · simp [e, h, hr, raiseGP_eq, eq_comm]
    · simp [e, h]
  · simp [ioPermCheck_out_of_range hr, hr]

/-- The check of CLI and STI passes or raises GP(0) (spec/42 R140). -/
theorem sensitiveCheck_spec (s : State) :
    (sensitiveCheck s = .next () ∧ SensitivePermitted s) ∨
      (sensitiveCheck s = raiseGP s ∧ ¬ SensitivePermitted s) := by
  unfold sensitiveCheck SensitivePermitted
  by_cases hm : mode s = .real
  · exact .inl ⟨if_pos hm, .inl hm⟩
  · by_cases hc : cpl s ≤ iopl s
    · exact .inl ⟨by rw [if_neg hm, if_pos hc], .inr hc⟩
    · exact .inr ⟨by rw [if_neg hm, if_neg hc], by simp [hm, hc]⟩

end Sys2Proof.Machine
end

