-- ==== Sys2Proof/Laws/Meanings.lean ====
section
/-! SUPPORT. For each shared meaning, once, when it answers a next state and which one, when it faults and when it is
refused. -/

namespace Sys2Proof.Machine

open Sys2Proof.Safety

/-! ## Values -/

theorem truncTo_eq_lowBits (w : Width) (v : Dword) : truncTo w v = lowBits w v := by
  cases w
  · apply BitVec.eq_of_getLsbD_eq
    intro i hi
    rw [getLsbD_truncTo, lowBits, BitVec.getLsbD_and, getLsbD_mask_FF, Bool.and_comm]
    rfl
  · apply BitVec.eq_of_getLsbD_eq
    intro i hi
    rw [getLsbD_truncTo, lowBits, BitVec.getLsbD_and, getLsbD_mask_FFFF, Bool.and_comm]
    rfl
  · rfl

theorem lowBits_lowBits (w : Width) (v : Dword) : lowBits w (lowBits w v) = lowBits w v := by
  rw [← truncTo_eq_lowBits, ← truncTo_eq_lowBits, truncTo_truncTo]

theorem deviceAnswer_eq_answerOf (s : State) (p : Port) (w : Width) : deviceAnswer s p w = answerOf s p w := by
  unfold deviceAnswer answerOf
  rw [truncTo_eq_lowBits]

theorem answerOf_lt (s : State) (p : Port) (w : Width) : (answerOf s p w).toNat < 2 ^ (8 * widthBytes w) :=
  deviceAnswer_eq_answerOf s p w ▸ deviceAnswer_lt s p w

theorem lowBits_answerOf (s : State) (p : Port) (w : Width) : lowBits w (answerOf s p w) = answerOf s p w := by
  rw [← deviceAnswer_eq_answerOf, ← truncTo_eq_lowBits, truncTo_deviceAnswer]

/-- A write of the accumulator touches EAX only. -/
theorem writeAcc_eq (w : Width) (v : Dword) (s : State) :
    writeAcc w v s = s.setEax (eaxAfter w s.eax (lowBits w v)) := by
  cases w
  · show s.setEax _ = s.setEax _
    rw [withLow8_eq_mask]; rfl
  · show s.setEax _ = s.setEax _
    rw [withLow16_eq_mask]; rfl
  · rfl

theorem readBytes_eq_elementValue (m : Memory) (a : Dword) (w : Width) :
    readBytes m a (widthBytes w) = elementValue m a w := by
  have e2 : a + 1 + 1 = a + 2 := by rw [BitVec.add_assoc]; rfl
  have e3 : a + 2 + 1 = a + 3 := by rw [BitVec.add_assoc]; rfl
  cases w <;> simp only [widthBytes, elementValue, readBytes, e2, e3]
  all_goals
    generalize readByte m a.toNat = b0
    try generalize readByte m (a + 1).toNat = b1
    try generalize readByte m (a + 2).toNat = b2
    try generalize readByte m (a + 3).toNat = b3
    apply BitVec.eq_of_getLsbD_eq
    intro i hi
    simp only [BitVec.getLsbD_or, BitVec.getLsbD_shiftLeft, BitVec.getLsbD_setWidth, BitVec.getLsbD_append]
  · simp
  · by_cases h8 : i < 8
    · simp [h8, hi]
    · simp [h8, hi, BitVec.getLsbD_of_ge b0 i (by omega), show i - 8 < 32 by omega]
  · by_cases h8 : i < 8
    · simp [h8, hi]
    · have h0 := BitVec.getLsbD_of_ge b0 i (by omega)
      by_cases h16 : i < 16
      · simp [h8, hi, h0, show i - 8 < 32 by omega, show i - 8 < 8 by omega]
      · have h1 := BitVec.getLsbD_of_ge b1 (i - 8) (by omega)
        by_cases h24 : i < 24
        · simp [h8, hi, h0, h1, show i - 8 < 32 by omega, show ¬ i - 8 < 8 by omega, show i - 8 - 8 < 8 by omega,
            show i - 8 - 8 < 32 by omega]
        · have h2 := BitVec.getLsbD_of_ge b2 (i - 8 - 8) (by omega)
          simp [h8, hi, h0, h1, h2, show i - 8 < 32 by omega, show ¬ i - 8 < 8 by omega, show ¬ i - 8 - 8 < 8 by omega,
            show i - 8 - 8 < 32 by omega, show i - 8 - 8 - 8 < 32 by omega]

theorem decrement_eq_ecxLess (z : Size) (r : Dword) : decrement z r = ecxLess z r := by
  cases z
  · show withLow16 _ _ = _
    rw [ecxLess, ← withLow16_eq_mask]
    congr 1
    apply BitVec.eq_of_toNat_eq
    simp [BitVec.toNat_sub]
    omega
  · rfl

/-! ## IN and OUT -/

/-- The state an IN leaves. -/
def inputDone (w : Width) (port : Port) (len : Nat) (s : State) : State :=
  { s with
    eax := eaxAfter w s.eax (answerOf s port w)
    history := s.history ++ [⟨.read, port, w, answerOf s port w⟩]
    portAnswers := s.portAnswers.tail
    pc := s.pc + BitVec.ofNat 32 len }

/-- The state an OUT leaves. -/
def outputDone (w : Width) (port : Port) (len : Nat) (s : State) : State :=
  { s with
    history := s.history ++ [⟨.write, port, w, lowBits w s.eax⟩]
    pc := s.pc + BitVec.ofNat 32 len }

theorem inputAcc_eq_next {w : Width} {port : Port} {len : Nat} {s t : State} :
    inputAcc w port len s = .next t ↔
      (RangeOk port w ∧ IoPermitted s port w ∧ PcFits len s) ∧ t = inputDone w port len s := by
  unfold inputAcc
  simp only [andThen_eq_next, ioPermCheck_eq_next, portRead_eq_next, writeAcc_eq, advancePc_eq_next,
    deviceAnswer_eq_answerOf]
  constructor
  · rintro ⟨_, ⟨hr, hp⟩, _, ⟨-, rfl⟩, hf, rfl⟩
    refine ⟨⟨hr, hp, hf⟩, ?_⟩
    simp only [lowBits_answerOf]
    rfl
  · rintro ⟨⟨hr, hp, hf⟩, rfl⟩
    refine ⟨(), ⟨hr, hp⟩, _, ⟨hr, rfl⟩, hf, ?_⟩
    simp only [lowBits_answerOf]
    rfl

theorem outputAcc_eq_next {w : Width} {port : Port} {len : Nat} {s t : State} :
    outputAcc w port len s = .next t ↔
      (RangeOk port w ∧ IoPermitted s port w ∧ PcFits len s) ∧ t = outputDone w port len s := by
  unfold outputAcc
  simp only [andThen_eq_next, ioPermCheck_eq_next, portWrite_eq_next, advancePc_eq_next, readAcc,
    truncTo_eq_lowBits, lowBits_lowBits]
  constructor
  · rintro ⟨_, ⟨hr, hp⟩, _, ⟨-, rfl⟩, hf, rfl⟩
    exact ⟨⟨hr, hp, hf⟩, rfl⟩
  · rintro ⟨⟨hr, hp, hf⟩, rfl⟩
    exact ⟨(), ⟨hr, hp⟩, _, ⟨hr, rfl⟩, hf, rfl⟩

/-! ## INS and OUTS, one element -/

/-- The state an element transfer of INS leaves. -/
def inputElementDone (w : Width) (p : Prefixes) (s : State) : State :=
  { s with
    mem := writeBytes s.mem (s.es.base + offsetOf (addrSize p s) s.edi) (widthBytes w) (answerOf s (dxPort s) w)
    edi := indexMoved (addrSize p s) (dfFlag s) (widthBytes w) s.edi
    history := s.history ++ [⟨.read, dxPort s, w, answerOf s (dxPort s) w⟩]
    portAnswers := s.portAnswers.tail }

/-- The state an element transfer of OUTS leaves. -/
def outputElementDone (w : Width) (p : Prefixes) (s : State) : State :=
  { s with
    esi := indexMoved (addrSize p s) (dfFlag s) (widthBytes w) s.esi
    history := s.history ++ [⟨.write, dxPort s, w,
      elementValue s.mem ((s.segReg (outsSegment p)).base + offsetOf (addrSize p s) s.esi) w⟩] }

theorem inputElement_eq_next {w : Width} {p : Prefixes} {s t : State} :
    inputElement w p s = .next t ↔
      (RangeOk (dxPort s) w ∧ IoPermitted s (dxPort s) w ∧ DestinationOk w p s) ∧ t = inputElementDone w p s := by
  unfold inputElement
  simp only [andThen_eq_next, ioPermCheck_eq_next, portRead_eq_next, memWrite_eq_next, sizedValue_eq_offsetOf,
    stepIndex_eq_indexMoved, deviceAnswer_eq_answerOf, Host.Outcome.next.injEq]
  constructor
  · rintro ⟨_, ⟨hr, hp⟩, _, ⟨-, rfl⟩, _, ⟨hd, rfl⟩, rfl⟩
    exact ⟨⟨hr, hp, hd⟩, rfl⟩
  · rintro ⟨⟨hr, hp, hd⟩, rfl⟩
    exact ⟨(), ⟨hr, hp⟩, _, ⟨hr, rfl⟩, _, ⟨hd, rfl⟩, rfl⟩

theorem lowBits_elementValue (m : Memory) (a : Dword) (w : Width) :
    lowBits w (elementValue m a w) = elementValue m a w := by
  rw [← truncTo_eq_lowBits, ← readBytes_eq_elementValue]
  apply BitVec.eq_of_getLsbD_eq
  intro i hi
  rw [getLsbD_truncTo, getLsbD_readBytes _ _ _ _ (widthBytes_le w)]
  cases decide (i < 8 * widthBytes w) <;> rfl

theorem outputElement_eq_next {w : Width} {p : Prefixes} {s t : State} :
    outputElement w p s = .next t ↔
      (RangeOk (dxPort s) w ∧ IoPermitted s (dxPort s) w ∧ SourceOk w p (offsetOf (addrSize p s) s.esi) s) ∧
        t = outputElementDone w p s := by
  unfold outputElement
  simp only [andThen_eq_next, ioPermCheck_eq_next, memRead_eq_next, portWrite_eq_next, sizedValue_eq_offsetOf,
    stepIndex_eq_indexMoved, readBytes_eq_elementValue, Host.Outcome.next.injEq]
  constructor
  · rintro ⟨_, ⟨hr, hp⟩, _, ⟨hd, rfl⟩, _, ⟨-, rfl⟩, rfl⟩
    exact ⟨⟨hr, hp, hd⟩, by rw [truncTo_eq_lowBits, lowBits_elementValue]; rfl⟩
  · rintro ⟨⟨hr, hp, hd⟩, rfl⟩
    exact ⟨(), ⟨hr, hp⟩, _, ⟨hd, rfl⟩, _, ⟨hr, rfl⟩, by rw [truncTo_eq_lowBits, lowBits_elementValue]; rfl⟩

/-- The state an element transfer of a string instruction leaves. -/
def elementDone (x : StringOp) (p : Prefixes) (s : State) : State :=
  match (stringShape x).1 with
  | .read => inputElementDone (stringShape x).2 p s
  | .write => outputElementDone (stringShape x).2 p s

theorem transferElement_read {x : StringOp} (hx : (stringShape x).1 = .read) (p : Prefixes) (s : State) :
    transferElement x p s = inputElement (stringShape x).2 p s := by
  cases x <;> simp [stringShape] at hx <;> rfl

theorem transferElement_write {x : StringOp} (hx : (stringShape x).1 = .write) (p : Prefixes) (s : State) :
    transferElement x p s = outputElement (stringShape x).2 p s := by
  cases x <;> simp [stringShape] at hx <;> rfl

/-- An element transfer completes exactly when it is ready. -/
theorem transferElement_eq_next {x : StringOp} {p : Prefixes} {s t : State} :
    transferElement x p s = .next t ↔ StringReady x p s ∧ t = elementDone x p s := by
  cases x
  all_goals first | exact inputElement_eq_next | exact outputElement_eq_next

/-- The element transfer's fault is that of the permission check. -/
theorem transferElement_eq_fault {x : StringOp} {p : Prefixes} {s : State} {r : Fault} :
    transferElement x p s = .fault r ↔ ioPermCheck s (dxPort s) (stringShape x).2 = .fault r := by
  have hin : ∀ w, inputElement w p s = .fault r ↔ ioPermCheck s (dxPort s) w = .fault r := by
    intro w
    simp only [inputElement, andThen_eq_fault, portRead_ne_fault, memWrite_ne_fault, reduceCtorEq, and_false, exists_false,
      or_false]
  have hout : ∀ w, outputElement w p s = .fault r ↔ ioPermCheck s (dxPort s) w = .fault r := by
    intro w
    simp only [outputElement, andThen_eq_fault, memRead_ne_fault, portWrite_ne_fault, reduceCtorEq, and_false, exists_false,
      or_false]
  cases x
  all_goals first | exact hin _ | exact hout _

/-- A permitted INS whose store is refused is refused so (spec/41 R135). -/
theorem transferElement_store_refused {x : StringOp} {p : Prefixes} {s : State} {r : Refusal}
    (hx : (stringShape x).1 = .read) (hr : RangeOk (dxPort s) (stringShape x).2)
    (hp : IoPermitted s (dxPort s) (stringShape x).2)
    (h : ∀ (t : State) v, t.segReg .es = s.es → t.text = s.text →
      memWrite t .es (offsetOf (addrSize p s) s.edi) (stringShape x).2 v = .refused r) :
    transferElement x p s = .refused r := by
  rw [transferElement_read hx, inputElement, ioPermCheck_eq_next (u := ()) |>.2 ⟨hr, hp⟩, andThen_next,
    portRead_of_range hr, andThen_next, sizedValue_eq_offsetOf]
  dsimp only
  rw [h (s.logIo ⟨.read, dxPort s, (stringShape x).2, deviceAnswer s (dxPort s) (stringShape x).2⟩).dropAnswer _ rfl rfl,
    andThen_refused]

/-- A permitted OUTS whose load is refused is refused so (spec/41 R135). -/
theorem transferElement_load_refused {x : StringOp} {p : Prefixes} {s : State} {r : Refusal}
    (hx : (stringShape x).1 = .write) (hr : RangeOk (dxPort s) (stringShape x).2)
    (hp : IoPermitted s (dxPort s) (stringShape x).2)
    (h : memRead s (outsSegment p) (offsetOf (addrSize p s) s.esi) (stringShape x).2 = .refused r) :
    transferElement x p s = .refused r := by
  rw [transferElement_write hx, outputElement, ioPermCheck_eq_next (u := ()) |>.2 ⟨hr, hp⟩, andThen_next,
    sizedValue_eq_offsetOf, h, andThen_refused]

/-- A string instruction is its element transfer and the advance of pc. -/
theorem exec_stringInstr (p : Prefixes) (x : StringOp) (s : State) :
    exec (stringInstr p x) s = andThen (transferElement x p s) (advancePc (lengthOp p)) := by
  cases x <;> rfl

theorem exec_stringInstr_eq_next {p : Prefixes} {x : StringOp} {s t : State} :
    exec (stringInstr p x) s = .next t ↔
      (StringReady x p s ∧ PcFits (lengthOp p) s) ∧
        t = (elementDone x p s).setPc (s.pc + BitVec.ofNat 32 (lengthOp p)) := by
  have hpc : (elementDone x p s).pc = s.pc ∧ (elementDone x p s).cs = s.cs := by cases x <;> exact ⟨rfl, rfl⟩
  simp only [exec_stringInstr, andThen_eq_next, transferElement_eq_next, advancePc_eq_next]
  constructor
  · rintro ⟨_, ⟨hr, rfl⟩, hf, rfl⟩
    exact ⟨⟨hr, by unfold PcFits at *; rwa [hpc.1, hpc.2] at hf⟩, by rw [hpc.1]⟩
  · rintro ⟨⟨hr, hf⟩, rfl⟩
    exact ⟨_, ⟨hr, rfl⟩, by unfold PcFits at *; rwa [hpc.1, hpc.2], by rw [hpc.1]⟩

/-! ## REP -/

theorem repeatCount_eq_offsetOf (z : Size) (s : State) : repeatCount z s = offsetOf z s.ecx := sizedValue_eq_offsetOf _ _

/-- REP with a count of 0 (spec/41 R132). -/
theorem execRep_zero {p : Prefixes} {x : StringOp} {s : State} (h : offsetOf (addrSize p s) s.ecx = 0) :
    execRep p x s = advancePc (lengthOpPlusOne p) s := by
  unfold execRep; rw [if_pos (by rwa [repeatCount_eq_offsetOf])]

/-- The count after one iteration is 0 exactly when it was 1. -/
theorem offsetOf_ecxLess_eq_zero (z : Size) (r : Dword) : offsetOf z (ecxLess z r) = 0 ↔ offsetOf z r = 1 := by
  rw [← sizedValue_eq_offsetOf, ← sizedValue_eq_offsetOf, ← decrement_eq_ecxLess]
  cases z
  · have h : ∀ v : BitVec 16, (withLow16 r v).setWidth 16 = v := by
      intro v
      apply BitVec.eq_of_getLsbD_eq
      intro i hi
      rw [BitVec.getLsbD_setWidth, getLsbD_withLow16]
      simp [hi]
    simp only [sizedValue, decrement, h]
    rw [← BitVec.toNat_inj, ← BitVec.toNat_inj]
    simp [BitVec.toNat_sub]
    omega
  · simp only [sizedValue, decrement]
    rw [← BitVec.toNat_inj, ← BitVec.toNat_inj]
    simp [BitVec.toNat_sub]
    have := r.isLt
    omega

/-- The state after one iteration of a REP with a count that is not 0. -/
def repDone (p : Prefixes) (x : StringOp) (s : State) : State :=
  ((elementDone x p s).setEcx (ecxLess (addrSize p s) s.ecx)).setPc
    (if offsetOf (addrSize p s) s.ecx = 1 then s.pc + BitVec.ofNat 32 (lengthOpPlusOne p) else s.pc)

theorem elementDone_ecx (x : StringOp) (p : Prefixes) (s : State) : (elementDone x p s).ecx = s.ecx := by
  cases x <;> rfl

theorem elementDone_pc (x : StringOp) (p : Prefixes) (s : State) : (elementDone x p s).pc = s.pc := by
  cases x <;> rfl

theorem elementDone_cs (x : StringOp) (p : Prefixes) (s : State) : (elementDone x p s).cs = s.cs := by
  cases x <;> rfl

theorem elementDone_params (x : StringOp) (p : Prefixes) (s : State) : (elementDone x p s).params = s.params := by
  cases x <;> rfl

/-- An iteration of REP stops as its element transfer stops. -/
theorem execRep_refused {p : Prefixes} {x : StringOp} {s : State} {r : Refusal} (hc : offsetOf (addrSize p s) s.ecx ≠ 0)
    (h : transferElement x p s = .refused r) : execRep p x s = .refused r := by
  rw [execRep, if_neg (by rwa [repeatCount_eq_offsetOf]), h, andThen_refused]

/-- One iteration of REP (spec/41 R131). -/
theorem execRep_eq_next {p : Prefixes} {x : StringOp} {s t : State} (h : offsetOf (addrSize p s) s.ecx ≠ 0) :
    execRep p x s = .next t ↔
      (StringReady x p s ∧ (offsetOf (addrSize p s) s.ecx = 1 → PcFits (lengthOpPlusOne p) s)) ∧ t = repDone p x s := by
  unfold execRep repDone
  rw [if_neg (by rwa [repeatCount_eq_offsetOf])]
  simp only [andThen_eq_next, transferElement_eq_next, decrement_eq_ecxLess, repeatCount_eq_offsetOf, setEcx_ecx,
    offsetOf_ecxLess_eq_zero]
  by_cases h1 : offsetOf (addrSize p s) s.ecx = 1
  · simp only [h1, ite_true, advancePc_eq_next, setEcx_pc, true_imp_iff]
    constructor
    · rintro ⟨_, ⟨hr, rfl⟩, hf, rfl⟩
      exact ⟨⟨hr, by simpa [PcFits, elementDone_pc, elementDone_cs] using hf⟩, by simp only [elementDone_pc]⟩
    · rintro ⟨⟨hr, hf⟩, rfl⟩
      exact ⟨_, ⟨hr, rfl⟩, by simpa [PcFits, elementDone_pc, elementDone_cs] using hf, by simp only [elementDone_pc]⟩
  · simp only [h1, ite_false, Host.Outcome.next.injEq, false_imp_iff, and_true]
    constructor
    · rintro ⟨_, ⟨hr, rfl⟩, rfl⟩
      exact ⟨hr, by simp [State.setPc, State.setEcx, elementDone_pc]⟩
    · rintro ⟨hr, rfl⟩
      exact ⟨_, ⟨hr, rfl⟩, by simp [State.setPc, State.setEcx, elementDone_pc]⟩

/-! ## CLI, STI and POPF -/

theorem execCli_eq_next {p : Prefixes} {s t : State} :
    execCli p s = .next t ↔
      (SensitivePermitted s ∧ PcFits (lengthOp p) s) ∧ t = (clearIf s).setPc (s.pc + BitVec.ofNat 32 (lengthOp p)) := by
  unfold execCli
  rcases sensitiveCheck_spec s with ⟨e, h⟩ | ⟨e, h⟩
  · rw [e, andThen_next, advancePc_eq_next]; exact ⟨fun ⟨a, b⟩ => ⟨⟨h, a⟩, b⟩, fun ⟨⟨_, a⟩, b⟩ => ⟨a, b⟩⟩
  · rw [e, andThen_raiseGP]; simp [raiseGP, h]

theorem execSti_eq_next {p : Prefixes} {s t : State} :
    execSti p s = .next t ↔
      (SensitivePermitted s ∧ PcFits (lengthOp p) s) ∧ t = (setIf s).setPc (s.pc + BitVec.ofNat 32 (lengthOp p)) := by
  unfold execSti
  rcases sensitiveCheck_spec s with ⟨e, h⟩ | ⟨e, h⟩
  · rw [e, andThen_next, advancePc_eq_next]; exact ⟨fun ⟨a, b⟩ => ⟨⟨h, a⟩, b⟩, fun ⟨⟨_, a⟩, b⟩ => ⟨a, b⟩⟩
  · rw [e, andThen_raiseGP]; simp [raiseGP, h]

theorem execPopf_eq_next {p : Prefixes} {s t : State} :
    execPopf p s = .next t ↔
      (mode s ≠ .v86 ∧ PcFits (lengthOp p) s) ∧
        t = (loadFlags (poppedImage (opSize p s) s) s.dropImage).setPc (s.pc + BitVec.ofNat 32 (lengthOp p)) := by
  unfold execPopf
  by_cases h : mode s = .v86
  · simp [h]
  · rw [if_neg h, advancePc_eq_next]; exact ⟨fun ⟨a, b⟩ => ⟨⟨h, a⟩, b⟩, fun ⟨⟨_, a⟩, b⟩ => ⟨a, b⟩⟩

/-- The bits of the popped image that POPF can load do not depend on the operand size. -/
theorem getLsbD_poppedImage (z : Size) (s : State) {i : Nat} (hi : i < 16) :
    (poppedImage z s).getLsbD i = (s.popImages.headD (Config.popfImage s.popfDraws)).getLsbD i := by
  unfold poppedImage
  cases z
  · simp only [sizedValue, BitVec.getLsbD_setWidth]
    simp [hi, show i < 32 by omega]
  · rfl

end Sys2Proof.Machine
end

