-- ==== Sys2Proof/Laws/Exec.lean ====
section
/-! SUPPORT. What executing any instruction can do, said once: the next states, the faults and where the range refuses. -/

namespace Sys2Proof.Machine

open Sys2Proof.Safety

/-- IN and OUT. -/
def isRegisterIo : Instr → Bool
  | .inAlImm8 _ _ => true
  | .inAxImm8 _ _ => true
  | .inEaxImm8 _ _ => true
  | .inAlDx _ => true
  | .inAxDx _ => true
  | .inEaxDx _ => true
  | .outImm8Al _ _ => true
  | .outImm8Ax _ _ => true
  | .outImm8Eax _ _ => true
  | .outDxAl _ => true
  | .outDxAx _ => true
  | .outDxEax _ => true
  | .insb _ => false
  | .insw _ => false
  | .insd _ => false
  | .outsb _ => false
  | .outsw _ => false
  | .outsd _ => false
  | .rep _ _ => false
  | .cli _ => false
  | .sti _ => false
  | .popf _ => false

/-- The shape of every instruction: one of the shared meanings over its transfer. -/
inductive ExecShape (i : Instr) (s : State) : Prop where
  | input (port : Port) (w : Width) (ht : ioTransfer i s = some (.read, port, w)) (hi : isRegisterIo i = true)
      (he : exec i s = inputAcc w port (instrLength i) s)
  | output (port : Port) (w : Width) (ht : ioTransfer i s = some (.write, port, w)) (hi : isRegisterIo i = true)
      (he : exec i s = outputAcc w port (instrLength i) s)
  | string (p : Prefixes) (x : StringOp) (hi : i = stringInstr p x)
  | rep (p : Prefixes) (x : StringOp) (hi : i = .rep p x)
  | cli (p : Prefixes) (hi : i = .cli p)
  | sti (p : Prefixes) (hi : i = .sti p)
  | popf (p : Prefixes) (hi : i = .popf p)

theorem execShape (i : Instr) (s : State) : ExecShape i s := by
  cases i with
  | inAlImm8 p imm => exact .input _ _ rfl rfl rfl
  | inAxImm8 p imm => exact .input _ _ rfl rfl rfl
  | inEaxImm8 p imm => exact .input _ _ rfl rfl rfl
  | inAlDx p => exact .input _ _ rfl rfl rfl
  | inAxDx p => exact .input _ _ rfl rfl rfl
  | inEaxDx p => exact .input _ _ rfl rfl rfl
  | outImm8Al p imm => exact .output _ _ rfl rfl rfl
  | outImm8Ax p imm => exact .output _ _ rfl rfl rfl
  | outImm8Eax p imm => exact .output _ _ rfl rfl rfl
  | outDxAl p => exact .output _ _ rfl rfl rfl
  | outDxAx p => exact .output _ _ rfl rfl rfl
  | outDxEax p => exact .output _ _ rfl rfl rfl
  | insb p => exact .string p .insb rfl
  | insw p => exact .string p .insw rfl
  | insd p => exact .string p .insd rfl
  | outsb p => exact .string p .outsb rfl
  | outsw p => exact .string p .outsw rfl
  | outsd p => exact .string p .outsd rfl
  | rep p x => exact .rep p x rfl
  | cli p => exact .cli p rfl
  | sti p => exact .sti p rfl
  | popf p => exact .popf p rfl

theorem instrLength_stringInstr (p : Prefixes) (x : StringOp) : instrLength (stringInstr p x) = lengthOp p := by
  cases x <;> rfl

theorem ioTransfer_stringInstr (p : Prefixes) (x : StringOp) (s : State) :
    ioTransfer (stringInstr p x) s = some ((stringShape x).1, dxPort s, (stringShape x).2) := by
  cases x <;> rfl

theorem storesMemory_stringInstr (p : Prefixes) (x : StringOp) :
    storesMemory (stringInstr p x) = ((stringShape x).1 == .read) := by
  cases x <;> rfl

/-- What an instruction can do when it answers a next state. -/
inductive ExecNext (i : Instr) (s t : State) : Prop where
  | input (port : Port) (w : Width) (ht : ioTransfer i s = some (.read, port, w)) (hi : isRegisterIo i = true)
      (hr : RangeOk port w) (hp : IoPermitted s port w) (hf : PcFits (instrLength i) s)
      (he : t = inputDone w port (instrLength i) s)
  | output (port : Port) (w : Width) (ht : ioTransfer i s = some (.write, port, w)) (hi : isRegisterIo i = true)
      (hr : RangeOk port w) (hp : IoPermitted s port w) (hf : PcFits (instrLength i) s)
      (he : t = outputDone w port (instrLength i) s)
  | string (p : Prefixes) (x : StringOp) (hi : i = stringInstr p x) (hr : StringReady x p s)
      (hf : PcFits (lengthOp p) s) (he : t = (elementDone x p s).setPc (s.pc + BitVec.ofNat 32 (lengthOp p)))
  | repZero (p : Prefixes) (x : StringOp) (hi : i = .rep p x) (hc : offsetOf (addrSize p s) s.ecx = 0)
      (hf : PcFits (lengthOpPlusOne p) s) (he : t = s.setPc (s.pc + BitVec.ofNat 32 (lengthOpPlusOne p)))
  | rep (p : Prefixes) (x : StringOp) (hi : i = .rep p x) (hc : offsetOf (addrSize p s) s.ecx ≠ 0)
      (hr : StringReady x p s) (hf : offsetOf (addrSize p s) s.ecx = 1 → PcFits (lengthOpPlusOne p) s)
      (he : t = repDone p x s)
  | cli (p : Prefixes) (hi : i = .cli p) (hp : SensitivePermitted s) (hf : PcFits (lengthOp p) s)
      (he : t = (clearIf s).setPc (s.pc + BitVec.ofNat 32 (lengthOp p)))
  | sti (p : Prefixes) (hi : i = .sti p) (hp : SensitivePermitted s) (hf : PcFits (lengthOp p) s)
      (he : t = (setIf s).setPc (s.pc + BitVec.ofNat 32 (lengthOp p)))
  | popf (p : Prefixes) (hi : i = .popf p) (hm : mode s ≠ .v86) (hf : PcFits (lengthOp p) s)
      (he : t = (loadFlags (poppedImage (opSize p s) s) s.dropImage).setPc (s.pc + BitVec.ofNat 32 (lengthOp p)))

theorem exec_next {i : Instr} {s t : State} (h : exec i s = .next t) : ExecNext i s t := by
  rcases execShape i s with ⟨port, w, ht, hi, he⟩ | ⟨port, w, ht, hi, he⟩ | ⟨p, x, rfl⟩ | ⟨p, x, rfl⟩ | ⟨p, rfl⟩ | ⟨p, rfl⟩ | ⟨p, rfl⟩
  · obtain ⟨⟨a, b, c⟩, d⟩ := inputAcc_eq_next.1 (he.symm.trans h)
    exact .input port w ht hi a b c d
  · obtain ⟨⟨a, b, c⟩, d⟩ := outputAcc_eq_next.1 (he.symm.trans h)
    exact .output port w ht hi a b c d
  · obtain ⟨⟨a, b⟩, c⟩ := exec_stringInstr_eq_next.1 h
    exact .string p x rfl a b c
  · change execRep p x s = _ at h
    by_cases hc : offsetOf (addrSize p s) s.ecx = 0
    · rw [execRep_zero hc] at h
      obtain ⟨a, b⟩ := advancePc_eq_next.1 h
      exact .repZero p x rfl hc a b
    · obtain ⟨⟨a, b⟩, c⟩ := (execRep_eq_next hc).1 h
      exact .rep p x rfl hc a b c
  · obtain ⟨⟨a, b⟩, c⟩ := execCli_eq_next.1 h
    exact .cli p rfl a b c
  · obtain ⟨⟨a, b⟩, c⟩ := execSti_eq_next.1 h
    exact .sti p rfl a b c
  · obtain ⟨⟨a, b⟩, c⟩ := execPopf_eq_next.1 h
    exact .popf p rfl a b c

/-- An I/O instruction stops as its permission check stops. -/
theorem exec_of_check {i : Instr} {s : State} {dir : IoDir} {port : Port} {w : Width}
    (h : ioTransfer i s = some (dir, port, w)) :
    (∀ r, ioPermCheck s port w = .fault r → exec i s = .fault r) ∧
      ∀ r, ioPermCheck s port w = .refused r → exec i s = .refused r := by
  have hel : ∀ (x : StringOp) (p : Prefixes),
      (∀ r, ioPermCheck s (dxPort s) (stringShape x).2 = .fault r → transferElement x p s = .fault r) ∧
        ∀ r, ioPermCheck s (dxPort s) (stringShape x).2 = .refused r → transferElement x p s = .refused r := by
    intro x p
    cases x <;> exact ⟨fun r hr => by simp only [transferElement, inputElement, outputElement, stringShape] at *; rw [hr]; rfl,
      fun r hr => by simp only [transferElement, inputElement, outputElement, stringShape] at *; rw [hr]; rfl⟩
  rcases execShape i s with ⟨port', w', ht, hi, he⟩ | ⟨port', w', ht, hi, he⟩ | ⟨p, x, rfl⟩ | ⟨p, x, rfl⟩ | ⟨p, rfl⟩ | ⟨p, rfl⟩ | ⟨p, rfl⟩
  · rw [h] at ht; cases ht
    exact ⟨fun r hr => by rw [he, inputAcc, hr]; rfl, fun r hr => by rw [he, inputAcc, hr]; rfl⟩
  · rw [h] at ht; cases ht
    exact ⟨fun r hr => by rw [he, outputAcc, hr]; rfl, fun r hr => by rw [he, outputAcc, hr]; rfl⟩
  · rw [ioTransfer_stringInstr] at h; cases h
    exact ⟨fun r hr => by rw [exec_stringInstr, (hel x p).1 r hr]; rfl,
      fun r hr => by rw [exec_stringInstr, (hel x p).2 r hr]; rfl⟩
  · simp only [ioTransfer] at h
    split at h
    · cases h
    · next hc =>
      cases h
      have hc' : ¬ repeatCount (addrSize p s) s = 0 := by rwa [repeatCount_eq_offsetOf]
      constructor
      · intro r hr
        show execRep p x s = _
        rw [execRep, if_neg hc', (hel x p).1 r hr]; rfl
      · intro r hr
        show execRep p x s = _
        rw [execRep, if_neg hc', (hel x p).2 r hr]; rfl
  · cases h
  · cases h
  · cases h

/-- Every fault is the fault of a permission check or of the check of CLI and STI. -/
theorem exec_fault {i : Instr} {s : State} {r : Fault} (h : exec i s = .fault r) :
    (∃ dir port w, ioTransfer i s = some (dir, port, w) ∧ ioPermCheck s port w = .fault r) ∨
      ((∃ p, i = .cli p ∨ i = .sti p) ∧ sensitiveCheck s = .fault r) := by
  rcases execShape i s with ⟨port, w, ht, hi, he⟩ | ⟨port, w, ht, hi, he⟩ | ⟨p, x, rfl⟩ | ⟨p, x, rfl⟩ | ⟨p, rfl⟩ | ⟨p, rfl⟩ | ⟨p, rfl⟩
  · refine .inl ⟨_, port, w, ht, ?_⟩
    simpa only [he, inputAcc, andThen_eq_fault, portRead_ne_fault, advancePc_ne_fault, and_false, exists_false,
      or_false] using h
  · refine .inl ⟨_, port, w, ht, ?_⟩
    simpa only [he, outputAcc, andThen_eq_fault, portWrite_ne_fault, advancePc_ne_fault, and_false, exists_false,
      or_false] using h
  · refine .inl ⟨_, _, _, ioTransfer_stringInstr p x s, ?_⟩
    simpa only [exec_stringInstr, andThen_eq_fault, advancePc_ne_fault, and_false, exists_false, or_false,
      transferElement_eq_fault] using h
  · change execRep p x s = _ at h
    by_cases hc : offsetOf (addrSize p s) s.ecx = 0
    · rw [execRep_zero hc] at h
      exact absurd h (advancePc_ne_fault _ _ _)
    · refine .inl ⟨_, _, _, by simp only [ioTransfer]; rw [if_neg hc], ?_⟩
      rw [execRep, if_neg (by rwa [repeatCount_eq_offsetOf]), andThen_eq_fault] at h
      rcases h with h | ⟨a, -, h⟩
      · exact transferElement_eq_fault.1 h
      · exfalso
        dsimp only at h
        split at h
        · exact advancePc_ne_fault _ _ _ h
        · cases h
  · refine .inr ⟨⟨p, .inl rfl⟩, ?_⟩
    change execCli p s = _ at h
    simpa only [execCli, andThen_eq_fault, advancePc_ne_fault, and_false, exists_false, or_false] using h
  · refine .inr ⟨⟨p, .inr rfl⟩, ?_⟩
    change execSti p s = _ at h
    simpa only [execSti, andThen_eq_fault, advancePc_ne_fault, and_false, exists_false, or_false] using h
  · exfalso
    change execPopf p s = _ at h
    unfold execPopf at h
    split at h
    · cases h
    · exact advancePc_ne_fault _ _ _ h

end Sys2Proof.Machine
end

