-- ==== Sys2Proof/Laws/Index.lean ====
section
/-! SUPPORT. The laws of the string index and of the repeat count over several elements. -/

namespace Sys2Proof.Machine

open Sys2Proof.Safety

theorem setWidth_withLow16 (r : Dword) (v : BitVec 16) : (withLow16 r v).setWidth 16 = v := by
  apply BitVec.eq_of_getLsbD_eq
  intro i hi
  rw [BitVec.getLsbD_setWidth, getLsbD_withLow16]
  simp [hi]

theorem withLow16_withLow16 (r : Dword) (u v : BitVec 16) : withLow16 (withLow16 r u) v = withLow16 r v := by
  apply BitVec.eq_of_getLsbD_eq
  intro i hi
  simp only [getLsbD_withLow16]
  split <;> simp [*]

/-- The low 16 bits of a register moved by `k`. -/
def lowMoved (df : Bool) (k : Nat) (v : BitVec 16) : BitVec 16 :=
  if df then v - BitVec.ofNat 16 k else v + BitVec.ofNat 16 k

theorem indexMoved_s16 (df : Bool) (k : Nat) (r : Dword) :
    indexMoved .s16 df k r = withLow16 r (lowMoved df k (r.setWidth 16)) := by
  cases df <;> simp only [indexMoved, lowMoved, ite_true, ite_false, Bool.false_eq_true] <;>
    rw [← withLow16_eq_mask] <;> congr 1 <;> apply BitVec.eq_of_toNat_eq <;> simp [BitVec.toNat_sub] <;> omega

/-- Moves of the index add up. -/
theorem indexMoved_add (z : Size) (df : Bool) (a b : Nat) (r : Dword) :
    indexMoved z df a (indexMoved z df b r) = indexMoved z df (a + b) r := by
  cases z
  · simp only [indexMoved_s16, setWidth_withLow16, withLow16_withLow16]
    congr 1
    cases df <;> simp only [lowMoved, ite_true, ite_false, Bool.false_eq_true] <;> apply BitVec.eq_of_toNat_eq <;>
      simp [BitVec.toNat_sub] <;> omega
  · have := r.isLt
    cases df <;> simp only [indexMoved, ite_true, ite_false, Bool.false_eq_true] <;> apply BitVec.eq_of_toNat_eq <;>
      simp [BitVec.toNat_sub] <;> omega

theorem indexMoved_zero (z : Size) (df : Bool) (r : Dword) : indexMoved z df 0 r = r := by
  cases z
  · rw [indexMoved_s16]
    apply BitVec.eq_of_getLsbD_eq
    intro i hi
    rw [getLsbD_withLow16]
    cases df <;> simp [lowMoved] <;> intro h <;> simp [h]
  · cases df <;> simp [indexMoved]

/-- A count that is not 0 goes down by one. -/
theorem toNat_offsetOf_ecxLess {z : Size} {r : Dword} (h : offsetOf z r ≠ 0) :
    (offsetOf z (ecxLess z r)).toNat = (offsetOf z r).toNat - 1 := by
  rw [← sizedValue_eq_offsetOf, ← sizedValue_eq_offsetOf, ← decrement_eq_ecxLess] at *
  cases z
  · simp only [sizedValue, decrement, setWidth_withLow16] at *
    have : (r.setWidth 16).toNat ≠ 0 := by
      intro e; apply h; rw [BitVec.eq_of_toNat_eq (show (r.setWidth 16).toNat = (0 : BitVec 16).toNat from e)]; rfl
    simp [BitVec.toNat_sub] at *; omega
  · simp only [sizedValue, decrement] at *
    have : r.toNat ≠ 0 := by
      intro e; apply h; apply BitVec.eq_of_toNat_eq; simpa using e
    have := r.isLt
    simp [BitVec.toNat_sub]; omega

theorem ecxDone_ecxLess (z : Size) (r : Dword) : ecxDone z (ecxLess z r) = ecxDone z r := by
  cases z
  · apply BitVec.eq_of_getLsbD_eq
    intro i hi
    simp only [ecxDone, ecxLess, BitVec.getLsbD_and, BitVec.getLsbD_or, getLsbD_mask_FFFF0000, getLsbD_mask_FFFF]
    by_cases h : i < 16
    · simp [h, hi, show ¬ 16 ≤ i by omega]
    · simp [h, hi]
  · rfl

/-- The last iteration leaves the count at 0. -/
theorem ecxLess_of_one {z : Size} {r : Dword} (h : offsetOf z r = 1) : ecxLess z r = ecxDone z r := by
  cases z
  · apply BitVec.eq_of_getLsbD_eq
    intro i hi
    have h0 := (offsetOf_ecxLess_eq_zero .s16 r).2 h
    have hb : (offsetOf .s16 (ecxLess .s16 r)).getLsbD i = false := by rw [h0]; simp
    simp only [offsetOf, ecxDone, ecxLess, BitVec.getLsbD_and, BitVec.getLsbD_or, getLsbD_mask_FFFF0000,
      getLsbD_mask_FFFF] at *
    by_cases h : i < 16
    · simp only [h, hi, show ¬ 16 ≤ i by omega, decide_true, decide_false, and_true, Bool.and_true, Bool.and_false, Bool.false_or] at *
      exact hb
    · simp [h, hi]
  · simp only [offsetOf] at h; subst h; rfl

theorem dword_eq_one_iff (v : Dword) : v = 1 ↔ v.toNat = 1 :=
  ⟨fun h => by rw [h]; rfl, fun h => BitVec.eq_of_toNat_eq h⟩

end Sys2Proof.Machine
end

