-- ==== Sys2Proof/Laws/PerInstr.lean ====
section
/-! SUPPORT. Statements about every instruction as syntax, one lemma per constructor. -/

namespace Sys2Proof.Laws.EncodedLength

/-- The encoding has as many bytes as the instruction's length says, and no admitted instruction has more than 7
(spec/30 R87). -/
def Statement (i : Instr) : Prop := (encode i).length = instrLength i ∧ 1 ≤ instrLength i ∧ instrLength i ≤ fetchWindow

theorem op (p : Prefixes) (b : Byte) :
    (encodePrefixes p ++ [b]).length = lengthOp p ∧ 1 ≤ lengthOp p ∧ lengthOp p ≤ fetchWindow := by
  have := prefixCount_le p
  simp only [List.length_append, length_encodePrefixes, List.length_singleton, lengthOp, fetchWindow]
  exact ⟨trivial, by omega, by omega⟩

theorem opPlusOne (p : Prefixes) (b c : Byte) :
    (encodePrefixes p ++ [b, c]).length = lengthOpPlusOne p ∧ 1 ≤ lengthOpPlusOne p ∧ lengthOpPlusOne p ≤ fetchWindow := by
  have := prefixCount_le p
  simp only [List.length_append, length_encodePrefixes, List.length_cons, List.length_nil, lengthOpPlusOne, fetchWindow]
  exact ⟨trivial, by omega, by omega⟩

theorem inAlImm8 (p : Prefixes) (imm8 : Byte) : Statement (.inAlImm8 p imm8) := opPlusOne p _ imm8
theorem inAxImm8 (p : Prefixes) (imm8 : Byte) : Statement (.inAxImm8 p imm8) := opPlusOne p _ imm8
theorem inEaxImm8 (p : Prefixes) (imm8 : Byte) : Statement (.inEaxImm8 p imm8) := opPlusOne p _ imm8
theorem inAlDx (p : Prefixes) : Statement (.inAlDx p) := op p _
theorem inAxDx (p : Prefixes) : Statement (.inAxDx p) := op p _
theorem inEaxDx (p : Prefixes) : Statement (.inEaxDx p) := op p _
theorem outImm8Al (p : Prefixes) (imm8 : Byte) : Statement (.outImm8Al p imm8) := opPlusOne p _ imm8
theorem outImm8Ax (p : Prefixes) (imm8 : Byte) : Statement (.outImm8Ax p imm8) := opPlusOne p _ imm8
theorem outImm8Eax (p : Prefixes) (imm8 : Byte) : Statement (.outImm8Eax p imm8) := opPlusOne p _ imm8
theorem outDxAl (p : Prefixes) : Statement (.outDxAl p) := op p _
theorem outDxAx (p : Prefixes) : Statement (.outDxAx p) := op p _
theorem outDxEax (p : Prefixes) : Statement (.outDxEax p) := op p _
theorem insb (p : Prefixes) : Statement (.insb p) := op p _
theorem insw (p : Prefixes) : Statement (.insw p) := op p _
theorem insd (p : Prefixes) : Statement (.insd p) := op p _
theorem outsb (p : Prefixes) : Statement (.outsb p) := op p _
theorem outsw (p : Prefixes) : Statement (.outsw p) := op p _
theorem outsd (p : Prefixes) : Statement (.outsd p) := op p _
theorem rep (p : Prefixes) (x : StringOp) : Statement (.rep p x) := by
  have := prefixCount_le p
  simp only [Statement, encode, instrLength, List.length_cons, List.length_append, length_encodePrefixes, List.length_nil,
    lengthOpPlusOne, fetchWindow]
  exact ⟨trivial, by omega, by omega⟩
theorem cli (p : Prefixes) : Statement (.cli p) := op p _
theorem sti (p : Prefixes) : Statement (.sti p) := op p _
theorem popf (p : Prefixes) : Statement (.popf p) := op p _

end Sys2Proof.Laws.EncodedLength
end

