-- ==== Sys2Proof/Tests/Slice0.lean ====
section
/-! SUPPORT. Tests. Every expected result of a step is a vector V<n> of spec/95_test_vectors.md, checked on the whole state;
every encoding is written out from spec/30 R80, R81 and R85. Then a witness for each statement with hypotheses. -/

namespace Sys2Proof.Tests

open Sys2Proof.Machine Sys2Proof.Safety

/-! ## States of spec/95, Part 2 -/

/-- A segment over all of memory. -/
def flat : SegReg := ⟨0, 0, 0xFFFFFFFF, true, true⟩

/-- The start state of Part 2: real mode with 32-bit sizes. -/
def real32 : State :=
  { State.reset with
    pc := 0x1000, edx := 0, eflags := 0, params := ⟨.s32, .s32, false⟩
    cs := flat, ss := flat, ds := flat, es := flat, fs := flat, gs := flat }

/-- Rows marked 16/16. -/
def real16 : State := { real32 with params := ⟨.s16, .s16, false⟩ }

/-- Protected mode at a level, with EFLAGS. -/
def prot (cpl : BitVec 16) (eflags : Dword) : State :=
  { real32 with cr0Pe := true, eflags := eflags, cs := { flat with selector := cpl } }

/-- Virtual 8086 mode with EFLAGS besides VM, sizes 16/16. -/
def v86 (eflags : Dword) : State := { real16 with cr0Pe := true, eflags := eflags ||| 0x20000 }

/-- Scenario TSS-A, its TSS at the linear address 0x90000, with a map base field of one byte. -/
def tssA (base : Byte) (s : State) : State :=
  { s with
    tss := ⟨true, 0x90000, 0x87, true⟩
    mem := storeList (storeList (storeList (storeList s.mem 0x90066 [base, 0]) 0x9006D [2]) 0x90070 [2]) 0x90074 [1] }

/-- The program text `bs` at pc. -/
def load (bs : List Byte) (s : State) : State :=
  { s with mem := storeList s.mem (s.cs.base + s.pc) bs, text := ⟨s.cs.base + s.pc, bs.length⟩ }

def nextIs (o : Result State) (t : State) : Bool :=
  match o with
  | .next u => decide (u = t)
  | .fault _ => false
  | .refused _ => false

def faultIs (o : Result State) (r : Fault) : Bool :=
  match o with
  | .next _ => false
  | .fault q => decide (q = r)
  | .refused _ => false

def refusedIs (o : Result State) (r : Refusal) : Bool :=
  match o with
  | .next _ => false
  | .fault _ => false
  | .refused q => decide (q = r)

/-- GP(0) at pc 0x1000. -/
def gp : Fault := .generalProtection 13 0 0x1000

/-- No prefix, the 66 byte, the 67 byte. -/
def none_ : Prefixes := ⟨false, false, none⟩
def p66 : Prefixes := ⟨true, false, none⟩
def p67 : Prefixes := ⟨false, true, none⟩

/-! ## WellFormed refuses each ill-formed shape -/

/-- A word form with the doubleword operand size (spec/30 R85): every word form under each default. -/
theorem test_wellFormed_refuses_word_at_size_32 :
    [Instr.inAxImm8 none_ 1, .inAxDx none_, .outImm8Ax none_ 1, .outDxAx none_, .insw none_, .outsw none_, .rep none_ .insw,
      .rep none_ .outsw].all (fun i => !wellFormed .s32 i) = true ∧
    [Instr.inAxImm8 p66 1, .inAxDx p66, .outImm8Ax p66 1, .outDxAx p66, .insw p66, .outsw p66, .rep p66 .insw,
      .rep p66 .outsw].all (fun i => !wellFormed .s16 i) = true := by decide

/-- A doubleword form with the word operand size: every doubleword form under each default. -/
theorem test_wellFormed_refuses_dword_at_size_16 :
    [Instr.inEaxImm8 none_ 1, .inEaxDx none_, .outImm8Eax none_ 1, .outDxEax none_, .insd none_, .outsd none_,
      .rep none_ .insd, .rep none_ .outsd].all (fun i => !wellFormed .s16 i) = true ∧
    [Instr.inEaxImm8 p66 1, .inEaxDx p66, .outImm8Eax p66 1, .outDxEax p66, .insd p66, .outsd p66, .rep p66 .insd,
      .rep p66 .outsd].all (fun i => !wellFormed .s32 i) = true := by decide

/-- Byte forms and the flag instructions take any prefixes. -/
theorem test_wellFormed_admits_sizeless_forms :
    [Instr.inAlImm8 p66 1, .inAlDx p67, .outImm8Al p66 1, .outDxAl p66, .insb p66, .outsb p67, .rep p66 .insb, .cli p66,
      .sti p67, .popf p66].all (fun i => wellFormed .s16 i && wellFormed .s32 i) = true := by decide

/-! ## Decoding: one word of every constructor, from spec/30 R81 and R85 -/

theorem test_decode_in :
    decode .s16 [0b11100100, 0b01100000] = .ok (.inAlImm8 none_ 0x60) [] ∧
    decode .s16 [0b11100101, 0b11111111] = .ok (.inAxImm8 none_ 0xFF) [] ∧
    decode .s32 [0b11100101, 0b11110000] = .ok (.inEaxImm8 none_ 0xF0) [] ∧
    decode .s32 [0b01100111, 0b11101100] = .ok (.inAlDx p67) [] ∧
    decode .s32 [0b01100110, 0b11101101] = .ok (.inAxDx p66) [] ∧
    decode .s32 [0b11101101] = .ok (.inEaxDx none_) [] := by decide

theorem test_decode_out :
    decode .s16 [0b11100110, 0b10000000] = .ok (.outImm8Al none_ 0x80) [] ∧
    decode .s32 [0b01100110, 0b11100111, 0b01000010] = .ok (.outImm8Ax p66 0x42) [] ∧
    decode .s32 [0b11100111, 0b11111000] = .ok (.outImm8Eax none_ 0xF8) [] ∧
    decode .s16 [0b11101110] = .ok (.outDxAl none_) [] ∧
    decode .s16 [0b11101111] = .ok (.outDxAx none_) [] ∧
    decode .s16 [0b01100110, 0b11101111] = .ok (.outDxEax p66) [] := by decide

theorem test_decode_string :
    decode .s16 [0b00111110, 0b01101100] = .ok (.insb ⟨false, false, some .ds⟩) [] ∧
    decode .s32 [0b01100110, 0b01101101] = .ok (.insw p66) [] ∧
    decode .s32 [0b01101101] = .ok (.insd none_) [] ∧
    decode .s32 [0b00100110, 0b01101110] = .ok (.outsb ⟨false, false, some .es⟩) [] ∧
    decode .s16 [0b01101111] = .ok (.outsw none_) [] ∧
    decode .s32 [0b01101111] = .ok (.outsd none_) [] := by decide

theorem test_decode_segments :
    decode .s32 [0x2E, 0x6E] = .ok (.outsb ⟨false, false, some .cs⟩) [] ∧
    decode .s32 [0x36, 0x6E] = .ok (.outsb ⟨false, false, some .ss⟩) [] ∧
    decode .s32 [0x64, 0x6E] = .ok (.outsb ⟨false, false, some .fs⟩) [] ∧
    decode .s32 [0x65, 0x6E] = .ok (.outsb ⟨false, false, some .gs⟩) [] := by decide

theorem test_decode_rep :
    decode .s32 [0b11110011, 0b01100111, 0b01101100] = .ok (.rep p67 .insb) [] ∧
    decode .s32 [0b11110011, 0b01100110, 0b01101111] = .ok (.rep p66 .outsw) [] ∧
    decode .s32 [0b01100110, 0b11110011, 0b01101101, 0x90] = .ok (.rep p66 .insw) [0x90] ∧
    decode .s32 [0b11110011, 0b01101101] = .ok (.rep none_ .insd) [] := by decide

theorem test_decode_flags :
    decode .s16 [0b11111010] = .ok (.cli none_) [] ∧ decode .s16 [0b11111011] = .ok (.sti none_) [] ∧
    decode .s16 [0b10011101] = .ok (.popf none_) [] := by decide

/-- V41 to V46, and bytes that end too soon. -/
theorem test_decode_refusals :
    decode .s32 [0xF3, 0xEC] = .error .repBeforeNonString ∧ decode .s32 [0xF2, 0x6C] = .error .repne ∧
    decode .s32 [0xF0, 0xEE] = .error .lock ∧ decode .s32 [0x66, 0x66, 0xED] = .error .repeatedPrefix ∧
    decode .s32 [0x90] = .error (.foreignOpcode 0x90) ∧ decode .s32 [0xF4] = .error (.foreignOpcode 0xF4) ∧
    decode .s32 [0xE4] = .error .endOfBytes ∧ decode .s32 [0x66] = .error .endOfBytes := by decide

/-- The same refusals with other prefixes in front or between (R81, R88 to R90). -/
theorem test_decode_refusals_after_prefixes :
    decode .s32 [0x66, 0x67, 0x66, 0xED] = .error .repeatedPrefix ∧
    decode .s32 [0x26, 0x66, 0x65, 0x6E] = .error .repeatedPrefix ∧
    decode .s32 [0xF3, 0x66, 0xED] = .error .repBeforeNonString ∧ decode .s32 [0x66, 0xF0, 0xEE] = .error .lock ∧
    decode .s32 [0x66, 0xF2, 0x6C] = .error .repne ∧ decode .s32 [0x66, 0x90] = .error (.foreignOpcode 0x90) ∧
    decode .s32 [0x66, 0xE4] = .error .endOfBytes := by decide

/-- The encoder writes the same words. -/
theorem test_encode :
    encode (.inAxImm8 p66 0x40) = [0x66, 0xE5, 0x40] ∧ encode (.rep p67 .insb) = [0xF3, 0x67, 0x6C] ∧
    encode (.outsd ⟨false, false, some .gs⟩) = [0x65, 0x6F] ∧ encode (.popf none_) = [0x9D] := by decide

/-- Words of the opcode table, and the step that runs one after reset. -/
theorem test_table_words :
    decodeTableWord 16 0x60E4 = some (.inAlImm8 none_ 0x60) ∧ decodeTableWord 8 0x6F = some (.outsw none_) ∧
    decodeTableWord 8 0x90 = none ∧
    nextIs (step (State.reset.withFetchWord 8 0xFB))
      { State.reset.withFetchWord 8 0xFB with eflags := 0x202, pc := 0xFFF1 } = true := by decide

/-! ## Steps: the vectors of spec/95, Part 3 -/

/-- V1: EAX[31:8] stays. -/
def v1 : State := load [0xE4, 0x60] { real32 with eax := 0xAABBCCDD, portAnswers := [0x1C] }

theorem test_inAlImm8 : nextIs (step v1)
    { v1 with
      eax := 0xAABBCC1C, history := [⟨.read, 0x60, .byte, 0x1C⟩], portAnswers := [], pc := 0x1002 } = true := by decide

/-- V2 -/
def v2 : State := load [0x66, 0xE5, 0x40] { real32 with eax := 0x11223344, portAnswers := [0xABCD] }

theorem test_inAxImm8 : nextIs (step v2)
    { v2 with
      eax := 0x1122ABCD, history := [⟨.read, 0x40, .word, 0xABCD⟩], portAnswers := [], pc := 0x1003 } = true := by decide

/-- V51: port 41 is denied. -/
def v51 : State := load [0x66, 0xE5, 0x28] (tssA 0x68 (prot 3 0))

theorem test_inAxImm8_denied : faultIs (step v51) gp = true := by decide

/-- V3 -/
def v3 : State := load [0xE5, 0xF0] { real32 with portAnswers := [0x12345678] }

theorem test_inEaxImm8 : nextIs (step v3)
    { v3 with
      eax := 0x12345678, history := [⟨.read, 0xF0, .dword, 0x12345678⟩], portAnswers := [], pc := 0x1002 } = true := by decide

/-- V53: the four bits lie in two map bytes. -/
def v53 : State := load [0xE5, 0x3E] (tssA 0x68 (prot 3 0))

theorem test_inEaxImm8_denied : faultIs (step v53) gp = true := by decide

/-- V5: EDX[31:16] is ignored. -/
def v5 : State := load [0xEC] { real32 with edx := 0xDEAD03F8, portAnswers := [0x41] }

theorem test_inAlDx : nextIs (step v5)
    { v5 with
      eax := 0x41, history := [⟨.read, 0x3F8, .byte, 0x41⟩], portAnswers := [], pc := 0x1001 } = true := by decide

/-- V64: the map decides whatever IOPL is. -/
def v64 : State := load [0xEC] { tssA 0x68 (v86 0x3000) with edx := 0x29 }

theorem test_inAlDx_v86 : faultIs (step v64) gp = true := by decide

/-- V6: an odd port, one event. -/
def v6 : State := load [0xED] { real16 with eax := 0xFFFF0000, edx := 0x1F1, portAnswers := [0xBEEF] }

theorem test_inAxDx : nextIs (step v6)
    { v6 with
      eax := 0xFFFFBEEF, history := [⟨.read, 0x1F1, .word, 0xBEEF⟩], portAnswers := [], pc := 0x1001 } = true := by decide

/-- V56: port 256 is not spanned. -/
def v56 : State := load [0x66, 0xED] { tssA 0x68 (prot 3 0) with edx := 0xFF }

theorem test_inAxDx_unmapped : faultIs (step v56) gp = true := by decide

/-- V7: the highest 32-bit port. -/
def v7 : State := load [0xED] { real32 with edx := 0xFFFC, portAnswers := [0x80860001] }

theorem test_inEaxDx : nextIs (step v7)
    { v7 with
      eax := 0x80860001, history := [⟨.read, 0xFFFC, .dword, 0x80860001⟩], portAnswers := [], pc := 0x1001 } = true := by decide

/-- V8 -/
def v8 : State := load [0xED] { real32 with eax := 0x5A5A5A5A, edx := 0xFFFD }

theorem test_inEaxDx_past_top : refusedIs (step v8) .portRangePastTop = true := by decide

/-- V70: permitted by the map. -/
def v70 : State := load [0xE6, 0x61] { tssA 0x68 (prot 1 0) with eax := 0xAA }

theorem test_outImm8Al : nextIs (step v70)
    { v70 with history := [⟨.write, 0x61, .byte, 0xAA⟩], pc := 0x1002 } = true := by decide

/-- V69 -/
def v69 : State := load [0xE6, 0x60] { tssA 0x68 (prot 3 0) with eax := 0xAA }

theorem test_outImm8Al_denied : faultIs (step v69) gp = true := by decide

/-- V13 -/
def v13 : State := load [0x66, 0xE7, 0x42] { real32 with eax := 0xFFFFABCD }

theorem test_outImm8Ax : nextIs (step v13)
    { v13 with history := [⟨.write, 0x42, .word, 0xABCD⟩], pc := 0x1003 } = true := by decide

/-- V14 -/
def v14 : State := load [0xE7, 0xF8] { real32 with eax := 0x12345678 }

theorem test_outImm8Eax : nextIs (step v14)
    { v14 with history := [⟨.write, 0xF8, .dword, 0x12345678⟩], pc := 0x1002 } = true := by decide

/-- V55: port 255 is the last one mapped. -/
def v55 : State := load [0xEE] { tssA 0x68 (prot 3 0) with eax := 0xEE, edx := 0xFF }

theorem test_outDxAl : nextIs (step v55)
    { v55 with history := [⟨.write, 0xFF, .byte, 0xEE⟩], pc := 0x1001 } = true := by decide

/-- V58: IopbExtraByte. -/
def v58 : State := load [0xEE] { tssA 0x68 (prot 3 0) with eax := 0xEE, edx := 0xFF, params := ⟨.s32, .s32, true⟩ }

theorem test_outDxAl_extra_byte : faultIs (step v58) gp = true := by decide

/-- V16 -/
def v16 : State := load [0xEF] { real16 with eax := 0x1234, edx := 0x1F0 }

theorem test_outDxAx : nextIs (step v16)
    { v16 with history := [⟨.write, 0x1F0, .word, 0x1234⟩], pc := 0x1001 } = true := by decide

/-- V19 -/
def v19 : State := load [0x66, 0xEF] { real16 with eax := 0xCAFEF00D, edx := 0xCF8 }

theorem test_outDxEax : nextIs (step v19)
    { v19 with history := [⟨.write, 0xCF8, .dword, 0xCAFEF00D⟩], pc := 0x1002 } = true := by decide

/-- V18 -/
def v18 : State := load [0xEF] { real32 with eax := 0x80000000, edx := 0xFFFE }

theorem test_outDxEax_past_top : refusedIs (step v18) .portRangePastTop = true := by decide

/-- V24: DI wraps, EDI[31:16] stays. The store is at the offset DI. -/
def v24 : State := load [0x6C] { real16 with edx := 0x60, edi := 0x1234FFFF, portAnswers := [0x77] }

theorem test_insb : nextIs (step v24)
    { v24 with
      edi := 0x12340000, mem := writeByte v24.mem 0xFFFF 0x77, history := [⟨.read, 0x60, .byte, 0x77⟩]
      portAnswers := [], pc := 0x1001 } = true := by decide

/-- V68: the check comes before the port and the memory. -/
def v68 : State := load [0x6C] { tssA 0x68 (prot 3 0) with edx := 0x29, edi := 0x1000 }

theorem test_insb_denied : faultIs (step v68) gp = true := by decide

/-- V22: the low byte lies lower. -/
def v22 : State := load [0x66, 0x6D] { real32 with edx := 0x1F0, edi := 0x2000, portAnswers := [0xBEEF] }

theorem test_insw : nextIs (step v22)
    { v22 with
      edi := 0x2002, mem := storeList v22.mem 0x2000 [0xEF, 0xBE], history := [⟨.read, 0x1F0, .word, 0xBEEF⟩]
      portAnswers := [], pc := 0x1002 } = true := by decide

/-- V27 -/
def v27 : State := load [0x66, 0x6D] { real32 with edx := 0xFFFF, edi := 0x2000 }

theorem test_insw_past_top : refusedIs (step v27) .portRangePastTop = true := by decide

/-- V23: with DF = 1 the element still lies upward. -/
def v23 : State :=
  load [0x6D] { real32 with
    eflags := 0x400, edx := 0xCFC, edi := 0x3000, portAnswers := [0x12345678] }

theorem test_insd : nextIs (step v23)
    { v23 with
      edi := 0x2FFC, mem := storeList v23.mem 0x3000 [0x78, 0x56, 0x34, 0x12]
      history := [⟨.read, 0xCFC, .dword, 0x12345678⟩], portAnswers := [], pc := 0x1001 } = true := by decide

/-- V33: the override names ES, here based at 0x100000. -/
def v33 : State :=
  load [0x26, 0x6E] { real32 with
    edx := 0x3F8, esi := 0x4000, mem := storeList (storeList [] 0x4000 [0x48]) 0x104000 [0x77]
    es := { flat with base := 0x100000 } }

theorem test_outsb : nextIs (step v33)
    { v33 with esi := 0x4001, history := [⟨.write, 0x3F8, .byte, 0x77⟩], pc := 0x1002 } = true := by decide

/-- V32: SI wraps downward. -/
def v32 : State := load [0x6E] { real16 with eflags := 0x400, edx := 0x3F8, mem := storeList [] 0 [0x0D] }

theorem test_outsb_down : nextIs (step v32)
    { v32 with esi := 0xFFFF, history := [⟨.write, 0x3F8, .byte, 0x0D⟩], pc := 0x1001 } = true := by decide

/-- V30 -/
def v30 : State :=
  load [0x6F] { real16 with
    edx := 0x1F0, esi := 0x1234FFFE, mem := storeList [] 0xFFFE [0x34, 0x12] }

theorem test_outsw : nextIs (step v30)
    { v30 with esi := 0x12340000, history := [⟨.write, 0x1F0, .word, 0x1234⟩], pc := 0x1001 } = true := by decide

/-- V31 -/
def v31 : State := load [0x6F] { real32 with edx := 0xCF8, esi := 0x5000, mem := storeList [] 0x5000 [0, 0, 0, 0x80] }

theorem test_outsd : nextIs (step v31)
    { v31 with esi := 0x5004, history := [⟨.write, 0xCF8, .dword, 0x80000000⟩], pc := 0x1001 } = true := by decide

/-- V38, first iteration: pc stays. -/
def v38 : State :=
  load [0xF3, 0x67, 0x6C] { real32 with
    eflags := 0x400, edx := 0x60, ecx := 0xABCD0002, edi := 0x55550000, portAnswers := [0x11, 0x22] }

theorem test_rep_iteration : nextIs (step v38)
    { v38 with
      ecx := 0xABCD0001, edi := 0x5555FFFF, mem := writeByte v38.mem 0 0x11
      history := [⟨.read, 0x60, .byte, 0x11⟩], portAnswers := [0x22] } = true := by decide

/-- V38, second iteration: the count ends at 0 and pc moves. -/
def v38b : State :=
  { v38 with
    ecx := 0xABCD0001, edi := 0x5555FFFF, mem := writeByte v38.mem 0 0x11, portAnswers := [0x22] }

theorem test_rep_last_iteration : nextIs (step v38b)
    { v38b with
      ecx := 0xABCD0000, edi := 0x5555FFFE, mem := writeByte v38b.mem 0xFFFF 0x22
      history := [⟨.read, 0x60, .byte, 0x22⟩], portAnswers := [], pc := 0x1003 } = true := by decide

/-- V76 -/
def v76 : State := load [0xFA] (v86 0x3200)

theorem test_cli : nextIs (step v76)
    { v76 with eflags := 0x23000, pc := 0x1001 } = true := by decide

/-- V72 -/
def v72 : State := load [0xFA] (prot 3 0x2200)

theorem test_cli_denied : faultIs (step v72) gp = true := by decide

/-- V73 -/
def v73 : State := load [0xFB] (prot 1 0x1000)

theorem test_sti : nextIs (step v73)
    { v73 with eflags := 0x1200, pc := 0x1001 } = true := by decide

/-- V77 -/
def v77 : State := load [0xFB] (v86 0x2000)

theorem test_sti_v86 : faultIs (step v77) gp = true := by decide

/-- V81: IOPL kept, IF and DF loaded. Bit 1 of the image is no field of the model (log 7). -/
def v81 : State := load [0x9D] { prot 2 0x2000 with popImages := [0x3602] }

theorem test_popf : nextIs (step v81)
    { v81 with eflags := 0x2600, popImages := [], popfDraws := 1, pc := 0x1001 } = true := by decide

/-- V79: neither IOPL nor IF altered. -/
def v79 : State := load [0x9D] { prot 3 0x200 with popImages := [0x3002] }

theorem test_popf_silent : nextIs (step v79)
    { v79 with popImages := [], popfDraws := 1, pc := 0x1001 } = true := by decide


/-! ## Witnesses: each names the obligation whose hypotheses it meets -/

theorem witness_DecodeOfEncode :
    wellFormed .s16 (.rep ⟨true, true, some .gs⟩ .outsd) = true ∧ wellFormed .s32 (.inAxImm8 p66 0xFF) = true := by decide

theorem witness_DecodedIsWellFormed :
    decode .s32 [0xF3, 0x65, 0x66, 0x67, 0x6F, 0x90] = .ok (.rep ⟨true, true, some .gs⟩ .outsw) [0x90] := by decide

theorem witness_PrefixOrderIsFree :
    ([0xF3, 0x66, 0x26] : List Byte).Perm [0x26, 0x66, 0xF3] ∧ AdmittedPrefixes [0xF3, 0x66, 0x26] := by
  unfold AdmittedPrefixes SameKind; decide

/-- Admitted lists of no prefix, of two, and of one of each kind; a byte of a kind that the list holds, the same and another;
REP in the list; the foreign bytes at both ends of the range and between. -/
theorem witness_ForeignBytesRefused :
    (AdmittedPrefixes [] ∧ AdmittedPrefixes [0x66, 0x67] ∧ AdmittedPrefixes [0xF3, 0x66, 0x67, 0x26]) ∧
    (SameKind 0x66 0x66 ∧ SameKind 0x26 0x65 ∧ ¬ SameKind 0x66 0x67) ∧
    (∀ b ∈ ([0x00, 0x90, 0xFF] : List Byte), ForeignByte b) ∧ ¬ ForeignByte 0x6C := by
  unfold ForeignByte AdmittedPrefixes SameKind
  exact ⟨by decide, by decide, by decide, by decide⟩

theorem witness_StepRunsDecodedInstruction :
    decode v38.params.defaultOpSize (fetch v38) = .ok (.rep p67 .insb) [] ∧
    decode State.reset.params.defaultOpSize (fetch State.reset) = .error .endOfBytes := by decide

theorem witness_StepRunsInstructionInMemory :
    wellFormed v2.params.defaultOpSize (.inAxImm8 p66 0x40) = true ∧
    ∀ k (h : k < (encode (.inAxImm8 p66 0x40)).length), v2.pc.toNat + k ≤ v2.cs.limit.toNat ∧
      inText v2 (v2.cs.base + BitVec.ofNat 32 (v2.pc.toNat + k)) = true ∧
      readByte v2.mem (v2.cs.base + BitVec.ofNat 32 (v2.pc.toNat + k)).toNat = (encode (.inAxImm8 p66 0x40))[k] := by
  decide

theorem wf_v22 : v22.mem.wf := by decide

/-- An INS that completes from a state that meets the invariant. -/
theorem witness_StepKeepsInvariant : Inv v22 ∧ ∃ t, step v22 = .next t :=
  ⟨⟨wf_v22, by simp [v22, load, real32, State.reset], by decide⟩, _, rfl⟩

/-- For SystemStateUnchanged, PcMovesByLength, HistoryGrowsByTheTransfer, MemoryWritersAndText, RegistersKept and
StringIoUsesNoDataRegister: completed instructions of each shape, a REP that goes on among them, and an address of the program text. -/
theorem witness_exec_next :
    (∃ t, exec (.inAlImm8 none_ 0x60) v1 = .next t) ∧ (∃ t, exec (.outDxAx none_) v16 = .next t) ∧
    (∃ t, exec (.insw p66) v22 = .next t) ∧ (∃ t, exec (.rep p67 .insb) v38 = .next t) ∧
    (∃ t, exec (.rep p67 .insb) v38b = .next t) ∧ (∃ t, exec (.cli none_) v76 = .next t) ∧
    (∃ t, exec (.popf none_) v81 = .next t) ∧ inText v22 0x1000 = true :=
  ⟨⟨_, rfl⟩, ⟨_, rfl⟩, ⟨_, rfl⟩, ⟨_, rfl⟩, ⟨_, rfl⟩, ⟨_, rfl⟩, ⟨_, rfl⟩, by decide⟩

/-- The transfers that the clauses of HistoryGrowsByTheTransfer and RegistersKept speak of. -/
theorem witness_transfers :
    ioTransfer (.inAlImm8 none_ 0x60) v1 = some (.read, 0x60, .byte) ∧
    ioTransfer (.outDxAx none_) v16 = some (.write, 0x1F0, .word) ∧ ioTransfer (.cli none_) v76 = none ∧
    ioTransfer (.rep p67 .insb) { v38 with ecx := 0xABCD0000 } = none := by decide

/-! ### Protection -/

/-- The highest ports of each width exist and the next do not. -/
theorem witness_RangeOk :
    RangeOk 0xFFFF .byte ∧ RangeOk 0xFFFE .word ∧ RangeOk 0xFFFC .dword ∧ ¬ RangeOk 0xFFFF .word ∧ ¬ RangeOk 0xFFFD .dword := by
  unfold RangeOk; decide

/-- Both clauses: real mode, and a consulted map that forbids. -/
theorem witness_ProtectionOperatesOutsideRealModeOnly :
    mode v1 = .real ∧ mode v51 ≠ .real ∧ iopl v51 < cpl v51 ∧ MapConsulted v51 ∧ RangeOk 0x28 .word ∧
    mapCheck v51 (0x28 : Port).toNat (widthBytes .word) = .fault gp :=
  ⟨by decide, by decide, by decide, .inl (by decide), by unfold RangeOk; decide, rfl⟩

/-- CPL = IOPL, where the gate passes, and CPL one above IOPL, where it does not. -/
theorem witness_IoplGateBeforeMap :
    mode (prot 2 0x2000) = .prot ∧ cpl (prot 2 0x2000) ≤ iopl (prot 2 0x2000) ∧
    mode (prot 2 0x1000) = .prot ∧ iopl (prot 2 0x1000) < cpl (prot 2 0x1000) := by decide

/-- IOPL 3 and IOPL 0, with no other bit different. -/
theorem witness_V86IgnoresIopl :
    mode v64 = .v86 ∧ iopl v64 = 3 ∧ RangeOk 0x29 .byte ∧
    ∀ j, j ≠ 12 → j ≠ 13 → (0x00020000 : Dword).getLsbD j = v64.eflags.getLsbD j := by
  refine ⟨by decide, by decide, by unfold RangeOk; decide, fun j h1 h2 => ?_⟩
  by_cases hj : j < 32
  · revert h1 h2; revert j; decide
  · rw [BitVec.getLsbD_of_ge _ _ (by omega), BitVec.getLsbD_of_ge _ _ (by omega)]

theorem tssReadable_v51 : TssReadable v51 := by unfold TssReadable; decide

/-- A permitted transfer, at the last mapped port. -/
theorem permitted_v55 : IoPermitted v55 0xFF .byte := by
  refine .inr (.inr ⟨by unfold TssReadable; decide, by unfold MapPermits PortFree; decide⟩)

/-- A forbidden one. -/
theorem not_permitted_v51 : ¬ IoPermitted v51 0x28 .word := by
  unfold IoPermitted TssReadable MapPermits PortFree; decide

/-- The three clauses: permitted, forbidden with a TSS that can be read, forbidden with none loaded. -/
theorem witness_PermissionCheckIsTheRules :
    IoPermitted v55 0xFF .byte ∧ (¬ IoPermitted v51 0x28 .word ∧ TssReadable v51) ∧
    (¬ IoPermitted (prot 3 0) 0x28 .word ∧ ¬ TssReadable (prot 3 0)) :=
  ⟨permitted_v55, ⟨not_permitted_v51, tssReadable_v51⟩,
    by unfold IoPermitted TssReadable MapPermits PortFree; decide, by unfold TssReadable; decide⟩

/-- TSS-A with no denied port. -/
def tssZero : State :=
  { prot 3 0 with tss := ⟨true, 0x90000, 0x87, true⟩, mem := storeList [] 0x90066 [0x68] }

/-- Both clauses at their common boundary: port 255 as a byte, port 255 as a word, port 256. -/
theorem witness_FirstTwoHundredFiftySixPorts :
    MapConsulted tssZero ∧ TssReadable tssZero ∧ tssZero.tss.is386 = true ∧ tssZero.params.iopbExtraByte = false ∧
    tssZero.tss.limit = mapBase tssZero + 31 ∧ (∀ k < 32, tssByte tssZero (mapBase tssZero + k) = 0) ∧
    (255 + widthBytes .byte ≤ 256 ∧ 256 < 255 + widthBytes .word ∧ 256 < 256 + widthBytes .byte) ∧
    RangeOk 255 .byte ∧ RangeOk 255 .word ∧ RangeOk 256 .byte :=
  ⟨.inl (by decide), by unfold TssReadable; decide, by decide, by decide, by decide, by decide, by decide,
    by unfold RangeOk; decide⟩

/-- V60: map base equal to the limit. -/
def v60 : State := load [0xEC] (tssA 0x87 (prot 3 0))

theorem witness_NoMapDeniesEveryPort :
    ioTransfer (.inAlDx none_) v60 = some (.read, 0, .byte) ∧ RangeOk 0 .byte ∧ MapConsulted v60 ∧ TssReadable v60 ∧
    v60.tss.limit ≤ mapBase v60 :=
  ⟨by decide, by unfold RangeOk; decide, .inl (by decide), by unfold TssReadable; decide, by decide⟩

/-- V59: port 247 passes with IopbExtraByte. -/
theorem witness_ExtraByteOnlyDenies :
    ioPermCheck { v55 with params := ⟨.s32, .s32, true⟩ } 0xF7 .byte = .next () := rfl

theorem witness_ForbiddenIoRaisesGP :
    ioTransfer (.inAxImm8 p66 0x28) v51 = some (.read, 0x28, .word) ∧ RangeOk 0x28 .word ∧ TssReadable v51 ∧
    ¬ IoPermitted v51 0x28 .word :=
  ⟨by decide, by unfold RangeOk; decide, tssReadable_v51, not_permitted_v51⟩

/-- One fault of each kind. -/
theorem witness_FaultsOnlyFromFailedChecks :
    exec (.inAxImm8 p66 0x28) v51 = .fault gp ∧ exec (.cli none_) v72 = .fault gp := ⟨rfl, rfl⟩

/-- V8 and V9, the lowest ports past the top for their widths. -/
theorem witness_PortsPastTopRefused :
    (ioTransfer (.inEaxDx none_) v8 = some (.read, 0xFFFD, .dword) ∧ ¬ RangeOk 0xFFFD .dword) ∧
    ioTransfer (.insw p66) v27 = some (.read, 0xFFFF, .word) ∧ ¬ RangeOk 0xFFFF .word := by
  unfold RangeOk; decide

/-- No TSS loaded, and a TSS whose limit ends inside the map base field. -/
theorem witness_UnreadableTssRefused :
    ioTransfer (.inAlDx none_) (prot 3 0) = some (.read, 0, .byte) ∧ RangeOk 0 .byte ∧ ¬ IoPermitted (prot 3 0) 0 .byte ∧
    ¬ TssReadable (prot 3 0) ∧ ¬ TssReadable { prot 3 0 with tss := ⟨true, 0x90000, 0x66, true⟩ } := by
  unfold RangeOk IoPermitted TssReadable MapPermits PortFree; decide

/-- The clauses' ready states with the limit one short of pc plus the length: IN, a REP of count 0, CLI, POPF. -/
def short (n : Dword) (s : State) : State := { s with cs := { s.cs with limit := s.pc + n - 1 } }

theorem witness_PcPastTopRefused :
    (¬ PcFits (instrLength (.inAlImm8 none_ 0x60)) (short 2 v1) ∧ RangeOk 0x60 .byte ∧ IoPermitted (short 2 v1) 0x60 .byte) ∧
    (¬ PcFits (instrLength (.rep none_ .outsb)) (short 2 v1) ∧ offsetOf (addrSize none_ (short 2 v1)) (short 2 v1).ecx = 0) ∧
    (¬ PcFits (instrLength (.cli none_)) (short 1 v76) ∧ SensitivePermitted (short 1 v76)) ∧
    ¬ PcFits (instrLength (.popf none_)) (short 1 v81) ∧ mode (short 1 v81) ≠ .v86 := by
  unfold PcFits RangeOk IoPermitted SensitivePermitted TssReadable MapPermits PortFree; decide

/-- V80: POPF at CPL 0. -/
def v80 : State := load [0x9D] { prot 0 0x200 with popImages := [0x3002] }

theorem witness_IoplChangesOnlyByPrivilegedPopf : ∃ t, step v80 = .next t ∧ iopl t ≠ iopl v80 := ⟨_, rfl, by decide⟩

theorem witness_IfChangesOnlyByThePermitted :
    (∃ t, step v76 = .next t ∧ ifFlag t ≠ ifFlag v76) ∧ (∃ t, step v73 = .next t ∧ ifFlag t ≠ ifFlag v73) ∧
    ∃ t, step v80 = .next t ∧ ifFlag t ≠ ifFlag v80 := ⟨⟨_, rfl, by decide⟩, ⟨_, rfl, by decide⟩, _, rfl, by decide⟩

/-! ### Results -/

/-- Every clause of InImmediateResult and OutImmediateResult: TSS-A, the last mapped ports, and a code segment whose limit is
just where pc ends. -/
def atLimit : State := { v55 with cs := { v55.cs with limit := 0x1002 } }

theorem witness_InOutImmediateResult :
    PcFits (prefixCount none_ + 2) atLimit ∧ ¬ PcFits (prefixCount p66 + 2) atLimit ∧
    IoPermitted atLimit ((0xFF : Byte).setWidth 16) .byte ∧ IoPermitted atLimit ((0xFE : Byte).setWidth 16) .word ∧
    IoPermitted atLimit ((0xFC : Byte).setWidth 16) .dword := by
  unfold PcFits IoPermitted TssReadable MapPermits PortFree; decide

/-- Every clause of InDxResult and OutDxResult, at the highest port of each width. -/
theorem witness_InOutDxResult :
    PcFits (prefixCount none_ + 1) v7 ∧
    IoPermitted { v7 with edx := 0xFFFF } (({ v7 with edx := 0xFFFF } : State).edx.setWidth 16) .byte ∧
    (RangeOk (({ v7 with edx := 0xFFFE } : State).edx.setWidth 16) .word ∧ IoPermitted { v7 with edx := 0xFFFE } 0xFFFE .word) ∧
    RangeOk (v7.edx.setWidth 16) .dword ∧ IoPermitted v7 (v7.edx.setWidth 16) .dword :=
  ⟨by unfold PcFits; decide, .inl (by decide), ⟨by unfold RangeOk; decide, .inl (by decide)⟩, by unfold RangeOk; decide,
    .inl (by decide)⟩

theorem ready_insb : StringReady .insb none_ v24 :=
  ⟨by unfold RangeOk; decide, .inl (by decide), by show DestinationOk _ _ _; unfold DestinationOk OffsetOk; decide⟩
theorem ready_insw : StringReady .insw p66 v22 :=
  ⟨by unfold RangeOk; decide, .inl (by decide), by show DestinationOk _ _ _; unfold DestinationOk OffsetOk; decide⟩
theorem ready_insd : StringReady .insd none_ v23 :=
  ⟨by unfold RangeOk; decide, .inl (by decide), by show DestinationOk _ _ _; unfold DestinationOk OffsetOk; decide⟩
theorem ready_outsb : StringReady .outsb ⟨false, false, some .es⟩ v33 :=
  ⟨by unfold RangeOk; decide, .inl (by decide), by show SourceOk _ _ _ _; unfold SourceOk OffsetOk; decide⟩
theorem ready_outsw : StringReady .outsw none_ v30 :=
  ⟨by unfold RangeOk; decide, .inl (by decide), by show SourceOk _ _ _ _; unfold SourceOk OffsetOk; decide⟩
theorem ready_outsd : StringReady .outsd none_ v31 :=
  ⟨by unfold RangeOk; decide, .inl (by decide), by show SourceOk _ _ _ _; unfold SourceOk OffsetOk; decide⟩

/-- An element that ends just at the segment's limit is ready. -/
theorem ready_at_limit : StringReady .outsw none_ { v30 with ds := { flat with limit := 0xFFFF } } :=
  ⟨by unfold RangeOk; decide, .inl (by decide), by show SourceOk _ _ _ _; unfold SourceOk OffsetOk; decide⟩

theorem witness_InsResult :
    (stringShape .insb).1 = .read ∧ v24.mem.wf ∧ PcFits (prefixCount none_ + 1) v24 ∧ StringReady .insb none_ v24 :=
  ⟨by decide, by decide, by unfold PcFits; decide, ready_insb⟩

/-- A string instruction ready but for pc, and a REP ready in its last iteration but for pc. -/
theorem witness_PcPastTopRefused_string :
    (¬ PcFits (instrLength (.outsw none_)) (short 1 v30) ∧ StringReady .outsw none_ (short 1 v30)) ∧
    ¬ PcFits (instrLength (.rep p67 .insb)) (short 3 v38b) ∧ offsetOf (addrSize p67 (short 3 v38b)) (short 3 v38b).ecx = 1 ∧
    StringReady .insb p67 (short 3 v38b) :=
  ⟨⟨by unfold PcFits; decide, by unfold RangeOk; decide, .inl (by decide), by show SourceOk _ _ _ _; unfold SourceOk OffsetOk; decide⟩,
    by unfold PcFits; decide, by decide, by unfold RangeOk; decide, .inl (by decide),
    by show DestinationOk _ _ _; unfold DestinationOk OffsetOk; decide⟩

theorem witness_OutsResult :
    (stringShape .outsw).1 = .write ∧ PcFits (prefixCount none_ + 1) v30 ∧ StringReady .outsw none_ v30 :=
  ⟨by decide, by unfold PcFits; decide, ready_outsw⟩

/-- The three clauses: a limit one short of the element (V34), an INS onto the last byte of the program text, a segment that
is not writable. -/
theorem witness_BadMemoryRefused :
    (RangeOk (v30.edx.setWidth 16) .word ∧ IoPermitted v30 (v30.edx.setWidth 16) .word) ∧
    ¬ (v30.ds.readable = true ∧ OffsetOk { flat with limit := 0xFFFE } (offsetOf (addrSize none_ v30) v30.esi) 2) ∧
    (v22.es.writable = true ∧ OffsetOk v22.es 0x1001 2 ∧
      ∃ i < 2, inText { v22 with edi := 0x1001 } (elementByte v22.es 0x1001 i) = true) ∧
    ¬ (({ flat with writable := false } : SegReg).writable = true ∧ OffsetOk { flat with writable := false } 0 2) :=
  ⟨⟨by unfold RangeOk; decide, .inl (by decide)⟩, by unfold OffsetOk; decide, by unfold OffsetOk; decide,
    by unfold OffsetOk; decide⟩

/-- The same three under REP with a count of 1 and of 2: the source past the limit, the destination in the program text, the
destination not writable. -/
theorem witness_BadMemoryRefused_rep :
    refusedIs (exec (.rep none_ .outsw) { v30 with ecx := 1, ds := { flat with limit := 0xFFFE } }) .memoryFault = true ∧
    refusedIs (exec (.rep p66 .insw) { v22 with ecx := 2, edi := 0x1001 }) .storeIntoText = true ∧
    refusedIs (exec (.rep p66 .insw) { v22 with ecx := 2, es := { flat with writable := false } }) .memoryFault = true ∧
    offsetOf (addrSize none_ v30) 1 ≠ 0 ∧ offsetOf (addrSize p66 v22) 2 ≠ 0 := by decide

/-- V37: a count of 0 in a task with no map. -/
def v37 : State := { load [0xF3, 0x6D] (prot 3 0) with edx := 0xCFC, edi := 0x3000 }

theorem witness_RepWithCountZero :
    offsetOf (addrSize none_ v37) v37.ecx = 0 ∧ PcFits (prefixCount none_ + 2) v37 ∧
    nextIs (step v37) { v37 with pc := 0x1002 } = true :=
  ⟨by decide, by unfold PcFits; decide, by decide⟩

/-- V36: REP OUTSB with a count of 3. -/
def v36 : State :=
  load [0xF3, 0x6E] { real32 with edx := 0x3F8, ecx := 3, esi := 0x4000, mem := storeList [] 0x4000 [0x48, 0x69, 0x21] }

/-- Reads with the counts 2 and 1, in the segment and with a limit that leaves no room for pc to move, which a count of 2 does
not need; a write with the count 3; and the room that the last clause asks for. -/
theorem witness_RepIteration :
    (v38.mem.wf ∧ offsetOf (addrSize p67 v38) v38.ecx = 2 ∧ PcFits (prefixCount p67 + 1) v38 ∧ StringReady .insb p67 v38) ∧
    (¬ PcFits (prefixCount p67 + 2) (short 3 v38) ∧ (short 3 v38).mem.wf ∧ (short 3 v38).ecx = v38.ecx ∧
      StringReady .insb p67 (short 3 v38)) ∧
    (offsetOf (addrSize p67 v38b) v38b.ecx = 1 ∧ PcFits (prefixCount p67 + 2) v38b ∧ StringReady .insb p67 v38b) ∧
    offsetOf (addrSize none_ v36) v36.ecx = 3 ∧ StringReady .outsb none_ v36 :=
  ⟨⟨by decide, by decide, by unfold PcFits; decide, by unfold RangeOk; decide, .inl (by decide), by show DestinationOk _ _ _; unfold DestinationOk OffsetOk; decide⟩,
    ⟨by unfold PcFits; decide, by decide, by decide, by unfold RangeOk; decide, .inl (by decide), by show DestinationOk _ _ _; unfold DestinationOk OffsetOk; decide⟩,
    ⟨by decide, by unfold PcFits; decide, by unfold RangeOk; decide, .inl (by decide), by show DestinationOk _ _ _; unfold DestinationOk OffsetOk; decide⟩,
    by decide, by unfold RangeOk; decide, .inl (by decide), by show SourceOk _ _ _ _; unfold SourceOk OffsetOk; decide⟩

theorem witness_RepOutsMovesTheBlock :
    (stringShape .outsb).1 = .write ∧ (offsetOf (addrSize none_ v36) v36.ecx).toNat = 3 ∧
    PcFits (prefixCount none_ + 2) v36 ∧ RangeOk (v36.edx.setWidth 16) .byte ∧
    IoPermitted v36 (v36.edx.setWidth 16) .byte ∧
    ∀ j < 3, SourceOk .byte none_
      (offsetOf (addrSize none_ v36) (indexMoved (addrSize none_ v36) (dfFlag v36) (j * widthBytes .byte) v36.esi)) v36 :=
  ⟨by decide, by decide, by unfold PcFits; decide, by unfold RangeOk; decide, .inl (by decide),
    by unfold SourceOk OffsetOk; decide⟩

theorem witness_RepInsMovesTheBlock :
    (stringShape .insb).1 = .read ∧ v38.mem.wf ∧ (offsetOf (addrSize p67 v38) v38.ecx).toNat = 2 ∧
    ∃ t, execTimes (.rep p67 .insb) 2 v38 = .next t := ⟨by decide, by decide, by decide, _, rfl⟩

/-- Both clauses: CPL = IOPL with pc ending at the limit, and CPL one above IOPL. -/
theorem witness_CliStiResult :
    (SensitivePermitted v73 ∧ PcFits (prefixCount none_ + 1) v73) ∧
    PcFits (prefixCount none_ + 1) { v73 with cs := { flat with limit := 0x1001 } } ∧ ¬ SensitivePermitted v72 := by
  unfold SensitivePermitted PcFits; decide

theorem witness_PopfResult : mode v81 ≠ .v86 ∧ PcFits (prefixCount none_ + 1) v81 := by unfold PcFits; decide

theorem witness_PopfNeverFaults :
    (∃ t, exec (.popf none_) v79 = .next t) ∧ mode v79 ≠ .real ∧ cpl v79 ≠ 0 ∧ iopl v79 < cpl v79 :=
  ⟨⟨_, rfl⟩, by decide⟩

/-- V84. -/
theorem witness_PopfInV86Refused : mode (v86 0x3000) = .v86 := by decide

theorem witness_MemReadAfterMemWrite :
    v22.mem.wf ∧ (v22.segReg .es).readable = true ∧ ∃ t, memWrite v22 .es 0xFFFFFFFC .dword 0x12345678 = .next t :=
  ⟨wf_v22, by decide, _, rfl⟩

end Sys2Proof.Tests
end

section
/-! The reset state, what a completed instruction changes field by field, and the invariant of a run. -/

namespace Sys2Proof.Proofs.StateFrame

open Sys2Proof.Machine Sys2Proof.Safety

/-! ## Steps and transfers -/

/-- A step that answers executed the instruction at pc. -/
theorem exists_exec_of_step {s t : State} (h : step s = .next t) :
    ∃ i rest, decode s.params.defaultOpSize (fetch s) = .ok i rest ∧ exec i s = .next t := by
  unfold step at h
  split at h
  · next i rest hd => exact ⟨i, rest, hd, h⟩
  · cases h

theorem stringInstr_ne_rep (p q : Prefixes) (x y : StringOp) : stringInstr p x ≠ .rep q y := by
  cases x <;> nofun

theorem isRegisterIo_stringInstr (p : Prefixes) (x : StringOp) : isRegisterIo (stringInstr p x) = false := by
  cases x <;> rfl

theorem ioTransfer_rep {p : Prefixes} {s : State} (x : StringOp) (hc : offsetOf (addrSize p s) s.ecx ≠ 0) :
    ioTransfer (.rep p x) s = some ((stringShape x).1, dxPort s, (stringShape x).2) := if_neg hc

/-! ## What an element transfer leaves -/

@[simp] theorem elementDone_eax (x : StringOp) (p : Prefixes) (s : State) : (elementDone x p s).eax = s.eax := by
  unfold elementDone; split <;> rfl

@[simp] theorem elementDone_eflags (x : StringOp) (p : Prefixes) (s : State) :
    (elementDone x p s).eflags = s.eflags := by
  unfold elementDone; split <;> rfl

@[simp] theorem elementDone_popImages (x : StringOp) (p : Prefixes) (s : State) :
    (elementDone x p s).popImages = s.popImages := by
  unfold elementDone; split <;> rfl

@[simp] theorem elementDone_popfDraws (x : StringOp) (p : Prefixes) (s : State) :
    (elementDone x p s).popfDraws = s.popfDraws := by
  unfold elementDone; split <;> rfl

theorem elementDone_of_read {x : StringOp} (hx : (stringShape x).1 = .read) (p : Prefixes) (s : State) :
    elementDone x p s = inputElementDone (stringShape x).2 p s := by
  unfold elementDone; rw [hx]

theorem elementDone_of_write {x : StringOp} (hx : (stringShape x).1 = .write) (p : Prefixes) (s : State) :
    elementDone x p s = outputElementDone (stringShape x).2 p s := by
  unfold elementDone; rw [hx]

/-- The direction is one of two: what holds of INS and of OUTS holds of every string operation. -/
theorem read_or_write (x : StringOp) : (stringShape x).1 = .read ∨ (stringShape x).1 = .write := by
  cases (stringShape x).1 <;> simp

/-- An OUTS keeps EDI and the device answers. -/
theorem elementDone_keeps_of_write {x : StringOp} (hx : (stringShape x).1 = .write) (p : Prefixes) (s : State) :
    (elementDone x p s).edi = s.edi ∧ (elementDone x p s).portAnswers = s.portAnswers := by
  rw [elementDone_of_write hx]; exact ⟨rfl, rfl⟩

/-- An INS keeps ESI. -/
theorem elementDone_esi_of_read {x : StringOp} (hx : (stringShape x).1 = .read) (p : Prefixes) (s : State) :
    (elementDone x p s).esi = s.esi := by
  rw [elementDone_of_read hx]; rfl

/-! ## EFLAGS -/

theorem popfLoadsIopl_iff (s : State) : popfLoadsIopl s = true ↔ mode s = .real ∨ cpl s = 0 := by
  simp [popfLoadsIopl]

theorem popfLoadsIf_iff (s : State) : popfLoadsIf s = true ↔ mode s = .real ∨ cpl s ≤ iopl s := by
  simp [popfLoadsIf]

/-- Who can change a bit of EFLAGS: CLI and STI bit 9 where permitted, POPF a bit of its mask (spec/42 R141 to R145). -/
theorem exec_eflags_changed {i : Instr} {s t : State} (h : exec i s = .next t) {j : Nat}
    (hj : t.eflags.getLsbD j ≠ s.eflags.getLsbD j) :
    (j = 9 ∧ SensitivePermitted s ∧ ∃ p, i = .cli p ∨ i = .sti p) ∨
      ((popfMask s).getLsbD j = true ∧ ∃ p, i = .popf p) := by
  cases exec_next h with
  | input _ _ _ _ _ _ _ he | output _ _ _ _ _ _ _ he | repZero _ _ _ _ _ he => subst he; exact absurd rfl hj
  | string _ _ _ _ _ he | rep _ _ _ _ _ _ he => subst he; exact absurd (by simp [repDone]) hj
  | cli p hi hp _ he =>
    subst he
    rw [setPc_eflags, getLsbD_clearIf] at hj
    exact .inl ⟨by_contra fun h9 => hj (by simp [h9]), hp, p, .inl hi⟩
  | sti p hi hp _ he =>
    subst he
    rw [setPc_eflags, getLsbD_setIf] at hj
    exact .inl ⟨by_contra fun h9 => hj (by simp [h9]), hp, p, .inr hi⟩
  | popf p hi _ _ he =>
    subst he
    rw [setPc_eflags, getLsbD_loadFlags] at hj
    exact .inr ⟨by_contra fun hm => hj (if_neg hm), p, hi⟩

theorem exec_eflags_of_not_flagControl {i : Instr} {s t : State} (h : exec i s = .next t)
    (hi : ∀ p, i ≠ .cli p ∧ i ≠ .sti p ∧ i ≠ .popf p) : t.eflags = s.eflags := by
  apply BitVec.eq_of_getLsbD_eq
  intro j _
  by_contra hj
  rcases exec_eflags_changed h hj with ⟨-, -, p, hp⟩ | ⟨-, p, hp⟩
  · exact hp.elim (hi p).1 (hi p).2.1
  · exact (hi p).2.2 hp

/-- VM is in no mask (spec/10 R19). -/
theorem exec_vmFlag {i : Instr} {s t : State} (h : exec i s = .next t) : vmFlag t = vmFlag s := by
  by_contra hv
  rcases exec_eflags_changed h hv with ⟨h9, -⟩ | ⟨hm, -⟩
  · cases h9
  · rw [getLsbD_popfMask] at hm; simp at hm

/-- A change of IOPL is a POPF that may load it (spec/42 R143). -/
theorem exec_iopl_changed {i : Instr} {s t : State} (h : exec i s = .next t) (hne : iopl t ≠ iopl s) :
    (mode s = .real ∨ cpl s = 0) ∧ ∃ p, i = .popf p := by
  have hbit : ∃ j, (j = 12 ∨ j = 13) ∧ t.eflags.getLsbD j ≠ s.eflags.getLsbD j := by
    by_contra hall
    push Not at hall
    exact hne (iopl_congr (hall 12 (.inl rfl)) (hall 13 (.inr rfl)))
  obtain ⟨j, hj, hd⟩ := hbit
  rcases exec_eflags_changed h hd with ⟨h9, -⟩ | ⟨hm, hi⟩
  · omega
  · rw [getLsbD_popfMask] at hm
    have hl : popfLoadsIopl s = true := by rcases hj with rfl | rfl <;> simpa using hm
    exact ⟨(popfLoadsIopl_iff s).1 hl, hi⟩

/-- A change of IF is a permitted CLI or STI, or a POPF that may load it (spec/42 R140, R144). -/
theorem exec_ifFlag_changed {i : Instr} {s t : State} (h : exec i s = .next t) (hne : ifFlag t ≠ ifFlag s) :
    (mode s = .real ∨ cpl s ≤ iopl s) ∧ ∃ p, i = .cli p ∨ i = .sti p ∨ i = .popf p := by
  rcases exec_eflags_changed h hne with ⟨-, hp, p, hi⟩ | ⟨hm, p, hi⟩
  · exact ⟨hp, p, hi.imp id .inl⟩
  · rw [getLsbD_popfMask] at hm
    exact ⟨(popfLoadsIf_iff s).1 (by simpa using hm), p, .inr (.inr hi)⟩

/-! ## The system state -/

/-- The fields that no instruction writes. -/
structure SameSystem (s t : State) : Prop where
  edx : t.edx = s.edx
  cr0Pe : t.cr0Pe = s.cr0Pe
  segReg : ∀ g, t.segReg g = s.segReg g
  tss : t.tss = s.tss
  params : t.params = s.params
  text : t.text = s.text

theorem sameSystem_elementDone (x : StringOp) (p : Prefixes) (s : State) : SameSystem s (elementDone x p s) := by
  unfold elementDone
  split <;> exact ⟨rfl, rfl, fun g => by cases g <;> rfl, rfl, rfl, rfl⟩

theorem SameSystem.setPc {s t : State} (h : SameSystem s t) (v : Dword) : SameSystem s (t.setPc v) :=
  ⟨h.edx, h.cr0Pe, fun g => (setPc_segReg t v g).trans (h.segReg g), h.tss, h.params, h.text⟩

theorem SameSystem.setEcx {s t : State} (h : SameSystem s t) (v : Dword) : SameSystem s (t.setEcx v) :=
  ⟨h.edx, h.cr0Pe, fun g => (setEcx_segReg t v g).trans (h.segReg g), h.tss, h.params, h.text⟩

theorem exec_sameSystem {i : Instr} {s t : State} (h : exec i s = .next t) : SameSystem s t := by
  cases exec_next h with
  | input _ _ _ _ _ _ _ he | output _ _ _ _ _ _ _ he | repZero _ _ _ _ _ he | cli _ _ _ _ he | sti _ _ _ _ he
  | popf _ _ _ _ he => subst he; exact ⟨rfl, rfl, fun g => by cases g <;> rfl, rfl, rfl, rfl⟩
  | string p x _ _ _ he => subst he; exact (sameSystem_elementDone x p s).setPc _
  | rep p x _ _ _ _ he => subst he; exact ((sameSystem_elementDone x p s).setEcx _).setPc _

theorem exec_cs {i : Instr} {s t : State} (h : exec i s = .next t) : t.cs = s.cs := (exec_sameSystem h).segReg .cs

/-! ## The program counter -/

theorem toNat_pc_of_advance {len : Nat} {s t : State} (hf : PcFits len s) (ht : t.pc = s.pc + BitVec.ofNat 32 len) :
    t.pc.toNat = s.pc.toNat + len := by
  rw [ht, toNat_pc_add hf]

/-- Settles O12, by cases on what completed: past the instruction and within the segment, or nowhere in a REP that goes
on (spec/10 R15, spec/41 R133). -/
theorem pcMovesByLength : Obligations.PcMovesByLength := by
  intro i s t h
  cases exec_next h with
  | input _ _ _ hi _ _ hf he | output _ _ _ hi _ _ hf he =>
    exact .inl ⟨toNat_pc_of_advance hf (he ▸ rfl), hf, fun p x hx => by simp [hx, isRegisterIo] at hi⟩
  | string p x hi _ hf he =>
    subst hi he
    rw [instrLength_stringInstr]
    exact .inl ⟨toNat_pc_of_advance hf rfl, hf, fun q y hx => absurd hx (stringInstr_ne_rep p q x y)⟩
  | repZero p x hi hc hf he =>
    subst hi he
    refine .inl ⟨toNat_pc_of_advance hf rfl, hf, fun q y hx => ?_⟩
    cases hx
    exact hc
  | rep p x hi hc _ hf he =>
    subst hi he
    have hecx := offsetOf_ecxLess_eq_zero (addrSize p s) s.ecx
    by_cases h1 : offsetOf (addrSize p s) s.ecx = 1
    · refine .inl ⟨toNat_pc_of_advance (hf h1) (if_pos h1), hf h1, fun q y hx => ?_⟩
      cases hx
      exact hecx.2 h1
    · exact .inr ⟨if_neg h1, p, x, rfl, fun h0 => h1 (hecx.1 h0)⟩
  | cli p hi _ hf he | sti p hi _ hf he | popf p hi _ hf he =>
    subst hi he
    exact .inl ⟨toNat_pc_of_advance hf rfl, hf, fun q y hx => by cases hx⟩

/-! ## The invariant -/

/-- An INS stores bytes, an OUTS stores nothing. -/
theorem wf_elementDone {s : State} (h : s.mem.wf) (x : StringOp) (p : Prefixes) : (elementDone x p s).mem.wf := by
  rcases read_or_write x with hx | hx
  · rw [elementDone_of_read hx]; exact wf_writeBytes h _ _ _
  · rw [elementDone_of_write hx]; exact h

theorem exec_mem_wf {i : Instr} {s t : State} (hm : s.mem.wf) (h : exec i s = .next t) : t.mem.wf := by
  cases exec_next h with
  | input _ _ _ _ _ _ _ he | output _ _ _ _ _ _ _ he | repZero _ _ _ _ _ he | cli _ _ _ _ he | sti _ _ _ _ he
  | popf _ _ _ _ he => subst he; exact hm
  | string p x _ _ _ he | rep p x _ _ _ _ he => subst he; exact wf_elementDone hm x p

theorem lowBits_lt (w : Width) (v : Dword) : (lowBits w v).toNat < 2 ^ (8 * widthBytes w) :=
  truncTo_eq_lowBits w v ▸ truncTo_lt w v

theorem elementValue_lt (m : Memory) (a : Dword) (w : Width) : (elementValue m a w).toNat < 2 ^ (8 * widthBytes w) :=
  lowBits_elementValue m a w ▸ lowBits_lt w _

/-- An element transfer records one event that can have happened. -/
theorem elementDone_history {x : StringOp} {p : Prefixes} {s : State} (h : StringReady x p s) :
    ∃ e, EventOk e ∧ (elementDone x p s).history = s.history ++ [e] := by
  have hr : RangeOk (dxPort s) (stringShape x).2 := h.1
  rcases read_or_write x with hx | hx
  · rw [elementDone_of_read hx]; exact ⟨_, ⟨hr, answerOf_lt _ _ _⟩, rfl⟩
  · rw [elementDone_of_write hx]; exact ⟨_, ⟨hr, elementValue_lt _ _ _⟩, rfl⟩

/-- An instruction records nothing or one event that can have happened (spec/20 R48, R49). -/
theorem exec_history {i : Instr} {s t : State} (h : exec i s = .next t) :
    t.history = s.history ∨ ∃ e, EventOk e ∧ t.history = s.history ++ [e] := by
  cases exec_next h with
  | input _ _ _ _ hr _ _ he => subst he; exact .inr ⟨_, ⟨hr, answerOf_lt _ _ _⟩, rfl⟩
  | output _ _ _ _ hr _ _ he => subst he; exact .inr ⟨_, ⟨hr, lowBits_lt _ _⟩, rfl⟩
  | string _ _ _ hr _ he | rep _ _ _ _ hr _ he => subst he; exact .inr (elementDone_history hr)
  | repZero _ _ _ _ _ he | cli _ _ _ _ he | sti _ _ _ _ he | popf _ _ _ _ he => subst he; exact .inl rfl

theorem exec_pc_in_segment {i : Instr} {s t : State} (hs : s.pc.toNat ≤ s.cs.limit.toNat) (h : exec i s = .next t) :
    t.pc.toNat ≤ t.cs.limit.toNat := by
  rw [exec_cs h]
  rcases pcMovesByLength i s t h with ⟨hpc, hf, -⟩ | ⟨hpc, -⟩
  · rw [hpc]; exact hf
  · rwa [hpc]

theorem exec_keeps_inv {i : Instr} {s t : State} (hs : Inv s) (h : exec i s = .next t) : Inv t := by
  obtain ⟨hm, hh, hpc⟩ := hs
  refine ⟨exec_mem_wf hm h, fun e he => ?_, exec_pc_in_segment hpc h⟩
  rcases exec_history h with hk | ⟨e', hok, hk⟩ <;> rw [hk] at he
  · exact hh e he
  · rcases List.mem_append.1 he with he | he
    · exact hh e he
    · rwa [List.mem_singleton.1 he]

/-! ## The general registers -/

section
variable {i : Instr} {s t : State} (h : exec i s = .next t)
include h

theorem exec_ecx (hi : ∀ p x, i ≠ .rep p x) : t.ecx = s.ecx := by
  cases exec_next h with
  | rep p x hr _ _ _ _ | repZero p x hr _ _ _ => exact absurd hr (hi p x)
  | string p x _ _ _ he => subst he; exact elementDone_ecx x p s
  | input _ _ _ _ _ _ _ he | output _ _ _ _ _ _ _ he | cli _ _ _ _ he | sti _ _ _ _ he | popf _ _ _ _ he =>
    subst he; rfl

theorem exec_popImages (hi : ∀ p, i ≠ .popf p) : t.popImages = s.popImages ∧ t.popfDraws = s.popfDraws := by
  cases exec_next h with
  | popf p hp _ _ _ => exact absurd hp (hi p)
  | string _ _ _ _ _ he | rep _ _ _ _ _ _ he => subst he; simp [repDone]
  | input _ _ _ _ _ _ _ he | output _ _ _ _ _ _ _ he | repZero _ _ _ _ _ he | cli _ _ _ _ he | sti _ _ _ _ he =>
    subst he; exact ⟨rfl, rfl⟩

/-- INS alone steps EDI. -/
theorem exec_edi (hi : storesMemory i = false) : t.edi = s.edi := by
  have hel : ∀ x p, ((stringShape x).1 == .read) = false → (elementDone x p s).edi = s.edi := fun x p hx =>
    (elementDone_keeps_of_write ((read_or_write x).resolve_left (by simpa using hx)) p s).1
  cases exec_next h with
  | string p x hp _ _ he => subst hp he; exact hel x p (storesMemory_stringInstr p x ▸ hi)
  | rep p x hp _ _ _ he => subst hp he; exact hel x p hi
  | input _ _ _ _ _ _ _ he | output _ _ _ _ _ _ _ he | repZero _ _ _ _ _ he | cli _ _ _ _ he | sti _ _ _ _ he
  | popf _ _ _ _ he => subst he; rfl

/-- OUTS alone steps ESI. -/
theorem exec_esi (hi : ∀ p x, (stringShape x).1 = .write → i ≠ stringInstr p x ∧ i ≠ .rep p x) : t.esi = s.esi := by
  cases exec_next h with
  | string p x hp _ _ he =>
    subst he; exact elementDone_esi_of_read ((read_or_write x).resolve_right fun hx => (hi p x hx).1 hp) p s
  | rep p x hp _ _ _ he =>
    subst he; exact elementDone_esi_of_read ((read_or_write x).resolve_right fun hx => (hi p x hx).2 hp) p s
  | input _ _ _ _ _ _ _ he | output _ _ _ _ _ _ _ he | repZero _ _ _ _ _ he | cli _ _ _ _ he | sti _ _ _ _ he
  | popf _ _ _ _ he => subst he; rfl

/-- Only a register input writes EAX. -/
theorem exec_eax (hi : isRegisterIo i = true → ∃ port w, ioTransfer i s = some (.write, port, w)) : t.eax = s.eax := by
  cases exec_next h with
  | input port w ht hr _ _ _ _ =>
    obtain ⟨port', w', ht'⟩ := hi hr
    rw [ht] at ht'; cases ht'
  | string _ _ _ _ _ he | rep _ _ _ _ _ _ he => subst he; simp [repDone]
  | output _ _ _ _ _ _ _ he | repZero _ _ _ _ _ he | cli _ _ _ _ he | sti _ _ _ _ he | popf _ _ _ _ he =>
    subst he; rfl

/-- Only a transfer that reads uses up a device answer. -/
theorem exec_portAnswers (hi : ∀ port w, ioTransfer i s ≠ some (.read, port, w)) : t.portAnswers = s.portAnswers := by
  have hel : ∀ x p, ioTransfer i s = some ((stringShape x).1, dxPort s, (stringShape x).2) →
      (elementDone x p s).portAnswers = s.portAnswers := fun x p ht =>
    (elementDone_keeps_of_write ((read_or_write x).resolve_left fun hx => hi _ _ (hx ▸ ht)) p s).2
  cases exec_next h with
  | input port w ht _ _ _ _ _ => exact absurd ht (hi port w)
  | string p x hp _ _ he => subst he; exact hel x p (hp ▸ ioTransfer_stringInstr p x s)
  | rep p x hp hc _ _ he => subst he; exact hel x p (hp ▸ ioTransfer_rep x hc)
  | output _ _ _ _ _ _ _ he | repZero _ _ _ _ _ he | cli _ _ _ _ he | sti _ _ _ _ he | popf _ _ _ _ he =>
    subst he; rfl

/-- An instruction without a transfer touches no register but pc and the flags. -/
theorem exec_of_no_transfer (hi : ioTransfer i s = none) :
    t.eax = s.eax ∧ t.esi = s.esi ∧ t.edi = s.edi ∧ t.ecx = s.ecx ∧ t.mem = s.mem ∧ t.portAnswers = s.portAnswers := by
  cases exec_next h with
  | input _ _ ht _ _ _ _ _ | output _ _ ht _ _ _ _ _ => rw [ht] at hi; cases hi
  | string p x hp _ _ _ => rw [hp, ioTransfer_stringInstr] at hi; cases hi
  | rep p x hp hc _ _ _ => rw [hp, ioTransfer_rep x hc] at hi; cases hi
  | repZero _ _ _ _ _ he | cli _ _ _ _ he | sti _ _ _ _ he | popf _ _ _ _ he =>
    subst he; exact ⟨rfl, rfl, rfl, rfl, rfl, rfl⟩

end

/-- A reading transfer is no OUTS. -/
theorem not_outs_of_read {i : Instr} {s : State} {port : Port} {w : Width} (ht : ioTransfer i s = some (.read, port, w))
    (p : Prefixes) (x : StringOp) (hx : (stringShape x).1 = .write) : i ≠ stringInstr p x ∧ i ≠ .rep p x := by
  constructor <;> rintro rfl
  · rw [ioTransfer_stringInstr, hx] at ht; cases ht
  · by_cases hc : offsetOf (addrSize p s) s.ecx = 0
    · rw [ioTransfer, if_pos hc] at ht; cases ht
    · rw [ioTransfer_rep x hc, hx] at ht; cases ht

theorem not_registerIo_of_string {i : Instr} (h : ∃ p x, i = stringInstr p x ∨ i = .rep p x) :
    isRegisterIo i = false := by
  obtain ⟨p, x, rfl | rfl⟩ := h
  · exact isRegisterIo_stringInstr p x
  · rfl

/-! ## The other obligations about the state -/

/-- Settles O10: a step executes an instruction, and executing any instruction keeps memory's form, records only
possible events and leaves pc within the segment. -/
theorem stepKeepsInvariant : Obligations.StepKeepsInvariant := by
  intro s t hs h
  obtain ⟨i, rest, -, he⟩ := exists_exec_of_step h
  exact exec_keeps_inv hs he

/-- Settles O11, by the frame of each completed instruction and the bit of VM. -/
theorem systemStateUnchanged : Obligations.SystemStateUnchanged := by
  intro i s t h
  have hs := exec_sameSystem h
  have hm : mode t = mode s := mode_congr hs.cr0Pe (exec_vmFlag h)
  exact ⟨hs.edx, hs.cr0Pe, exec_vmFlag h, hm, cpl_congr hm (exec_cs h), hs.segReg, hs.tss, hs.params, hs.text⟩

/-- Settles O15, register by register. -/
theorem registersKept : Obligations.RegistersKept := by
  intro i s t h
  refine ⟨fun hne => ?_, exec_eflags_of_not_flagControl h, exec_popImages h, exec_edi h, exec_esi h, fun hx => ?_,
    fun port w ht => ⟨exec_eax h fun _ => ⟨port, w, ht⟩, exec_portAnswers h (by simp [ht])⟩,
    fun ⟨port, w, ht⟩ => exec_esi h (not_outs_of_read ht), exec_of_no_transfer h⟩
  · by_contra hrep
    push Not at hrep
    exact hne (exec_ecx h hrep)
  · exact exec_eax h fun hr => by rw [not_registerIo_of_string hx] at hr; cases hr

/-- Settles O29, by the bits that a POPF's mask holds. -/
theorem ioplChangesOnlyByPrivilegedPopf : Obligations.IoplChangesOnlyByPrivilegedPopf := by
  intro s t h hne
  obtain ⟨i, rest, hd, he⟩ := exists_exec_of_step h
  obtain ⟨hpriv, p, rfl⟩ := exec_iopl_changed he hne
  exact ⟨hpriv, p, rest, hd⟩

/-- Settles O30, by the writers of bit 9. -/
theorem ifChangesOnlyByThePermitted : Obligations.IfChangesOnlyByThePermitted := by
  intro s t h hne
  obtain ⟨i, rest, hd, he⟩ := exists_exec_of_step h
  obtain ⟨hperm, p, hi⟩ := exec_ifFlag_changed he hne
  refine ⟨hperm, p, rest, ?_⟩
  rcases hi with rfl | rfl | rfl
  · exact .inl hd
  · exact .inr (.inl hd)
  · exact .inr (.inr hd)

/-- Settles O6: reset has no cell and no event, and FFF0 is within FFFF. -/
theorem resetMeetsInvariant : Obligations.ResetMeetsInvariant :=
  ⟨⟨.nil, List.forall_mem_nil _⟩, List.forall_mem_nil _, by decide⟩

/-- Settles O7, by evaluating the reset state. -/
theorem stateAfterReset : Obligations.StateAfterReset := by
  unfold Obligations.StateAfterReset
  decide

end Sys2Proof.Proofs.StateFrame
end

section
/-! EDX[31:16] is read by no operation: each shared operation commutes with replacing it. -/

namespace Sys2Proof.Proofs.EdxHigh

open Sys2Proof.Machine Sys2Proof.Safety

theorem dxPort_withEdxHigh (h : BitVec 16) (s : State) : dxPort (withEdxHigh h s) = dxPort s := by
  apply BitVec.eq_of_getLsbD_eq
  intro i hi
  show ((h ++ s.edx.setWidth 16 : BitVec 32).setWidth 16).getLsbD i = (s.edx.setWidth 16).getLsbD i
  rw [BitVec.getLsbD_setWidth, BitVec.getLsbD_append, if_pos hi]
  simp [hi]

/-! ## Operations that answer a value -/

theorem testPorts_withEdxHigh (h : BitVec 16) (s : State) (base k a : Nat) :
    testPorts (withEdxHigh h s) base k a = testPorts s base k a := by
  induction k generalizing a with
  | zero => rfl
  | succ k ih => unfold testPorts; simp only [ih]; rfl

theorem mapCheck_withEdxHigh (h : BitVec 16) (s : State) (p n : Nat) :
    mapCheck (withEdxHigh h s) p n = mapCheck s p n := by
  unfold mapCheck; simp only [testPorts_withEdxHigh]; rfl

theorem ioPermCheck_withEdxHigh (h : BitVec 16) (s : State) (p : Port) (w : Width) :
    ioPermCheck (withEdxHigh h s) p w = ioPermCheck s p w := by
  unfold ioPermCheck; simp only [mapCheck_withEdxHigh]; rfl

theorem segReg_withEdxHigh (h : BitVec 16) (s : State) (g : Seg) : (withEdxHigh h s).segReg g = s.segReg g := by
  cases g <;> rfl

theorem memRead_withEdxHigh (h : BitVec 16) (s : State) (g : Seg) (off : Dword) (w : Width) :
    memRead (withEdxHigh h s) g off w = memRead s g off w := by
  unfold memRead; rw [segReg_withEdxHigh]; rfl

/-! ## Operations that answer a state -/

/-- Sequencing: the first part answers alike, and each continuation commutes. -/
theorem andThen_mapNext {α : Type} {f : State → State} {x : Result α} {k k' : α → Result State}
    (hk : ∀ a, x = .next a → k' a = mapNext f (k a)) : andThen x k' = mapNext f (andThen x k) := by
  cases x with
  | next a => exact hk a rfl
  | fault r => rfl
  | refused r => rfl

/-- Sequencing: the first part commutes, and so does the continuation. -/
theorem mapNext_andThen {f : State → State} {x : Result State} {k k' : State → Result State}
    (hk : ∀ t, k' (f t) = mapNext f (k t)) : andThen (mapNext f x) k' = mapNext f (andThen x k) := by
  cases x with
  | next t => exact hk t
  | fault r => rfl
  | refused r => rfl

theorem advancePc_withEdxHigh (h : BitVec 16) (len : Nat) (s : State) :
    advancePc len (withEdxHigh h s) = mapNext (withEdxHigh h) (advancePc len s) := by
  by_cases hf : PcFits len s
  · rw [advancePc_of_fits hf]; exact advancePc_of_fits (s := withEdxHigh h s) hf
  · rw [advancePc_of_not_fits hf]; exact advancePc_of_not_fits (s := withEdxHigh h s) hf

theorem portWrite_withEdxHigh (h : BitVec 16) (s : State) (p : Port) (w : Width) (v : Dword) :
    portWrite (withEdxHigh h s) p w v = mapNext (withEdxHigh h) (portWrite s p w v) := by
  unfold portWrite; split <;> rfl

theorem memWrite_withEdxHigh (h : BitVec 16) (s : State) (g : Seg) (off : Dword) (w : Width) (v : Dword) :
    memWrite (withEdxHigh h s) g off w v = mapNext (withEdxHigh h) (memWrite s g off w v) := by
  have ho : ∀ a n, overlapsText (withEdxHigh h s) a n = overlapsText s a n := fun _ _ => rfl
  unfold memWrite
  rw [segReg_withEdxHigh, ho]
  split
  · split <;> rfl
  · rfl

theorem writeAcc_withEdxHigh (h : BitVec 16) (w : Width) (v : Dword) (s : State) :
    writeAcc w v (withEdxHigh h s) = withEdxHigh h (writeAcc w v s) := by
  cases w <;> rfl

/-- A port read, and a continuation that commutes on the value and the state read. -/
theorem andThen_portRead_withEdxHigh (h : BitVec 16) (s : State) (p : Port) (w : Width)
    {k k' : Dword × State → Result State}
    (hk : ∀ v t, k' (v, withEdxHigh h t) = mapNext (withEdxHigh h) (k (v, t))) :
    andThen (portRead (withEdxHigh h s) p w) k' = mapNext (withEdxHigh h) (andThen (portRead s p w) k) := by
  unfold portRead
  split
  · exact hk (deviceAnswer s p w) (s.logIo ⟨.read, p, w, deviceAnswer s p w⟩).dropAnswer
  · rfl

/-! ## Instructions -/

theorem inputAcc_withEdxHigh (h : BitVec 16) (w : Width) (port : Port) (len : Nat) (s : State) :
    inputAcc w port len (withEdxHigh h s) = mapNext (withEdxHigh h) (inputAcc w port len s) := by
  unfold inputAcc
  rw [ioPermCheck_withEdxHigh]
  refine andThen_mapNext fun _ _ => andThen_portRead_withEdxHigh h s port w fun v t => ?_
  rw [writeAcc_withEdxHigh, advancePc_withEdxHigh]

theorem outputAcc_withEdxHigh (h : BitVec 16) (w : Width) (port : Port) (len : Nat) (s : State) :
    outputAcc w port len (withEdxHigh h s) = mapNext (withEdxHigh h) (outputAcc w port len s) := by
  unfold outputAcc
  rw [ioPermCheck_withEdxHigh]
  refine andThen_mapNext fun _ _ => ?_
  rw [portWrite_withEdxHigh]
  exact mapNext_andThen (advancePc_withEdxHigh h len)

theorem inputElement_withEdxHigh (h : BitVec 16) (w : Width) (p : Prefixes) (s : State) :
    inputElement w p (withEdxHigh h s) = mapNext (withEdxHigh h) (inputElement w p s) := by
  unfold inputElement
  rw [dxPort_withEdxHigh, ioPermCheck_withEdxHigh]
  refine andThen_mapNext fun _ _ => andThen_portRead_withEdxHigh h s _ w fun v t => ?_
  rw [memWrite_withEdxHigh]
  exact mapNext_andThen fun _ => rfl

theorem outputElement_withEdxHigh (h : BitVec 16) (w : Width) (p : Prefixes) (s : State) :
    outputElement w p (withEdxHigh h s) = mapNext (withEdxHigh h) (outputElement w p s) := by
  unfold outputElement
  rw [dxPort_withEdxHigh, ioPermCheck_withEdxHigh, memRead_withEdxHigh]
  refine andThen_mapNext fun _ _ => andThen_mapNext fun v _ => ?_
  rw [portWrite_withEdxHigh]
  exact mapNext_andThen fun _ => rfl

theorem transferElement_withEdxHigh (h : BitVec 16) (x : StringOp) (p : Prefixes) (s : State) :
    transferElement x p (withEdxHigh h s) = mapNext (withEdxHigh h) (transferElement x p s) := by
  cases x with
  | insb | insw | insd => exact inputElement_withEdxHigh h _ p s
  | outsb | outsw | outsd => exact outputElement_withEdxHigh h _ p s

theorem exec_stringInstr_withEdxHigh (h : BitVec 16) (x : StringOp) (p : Prefixes) (s : State) :
    exec (stringInstr p x) (withEdxHigh h s) = mapNext (withEdxHigh h) (exec (stringInstr p x) s) := by
  rw [exec_stringInstr, exec_stringInstr, transferElement_withEdxHigh]
  exact mapNext_andThen (advancePc_withEdxHigh h _)

theorem execRep_withEdxHigh (h : BitVec 16) (x : StringOp) (p : Prefixes) (s : State) :
    execRep p x (withEdxHigh h s) = mapNext (withEdxHigh h) (execRep p x s) := by
  have hc : repeatCount (addrSize p (withEdxHigh h s)) (withEdxHigh h s) = repeatCount (addrSize p s) s := rfl
  unfold execRep
  rw [hc, transferElement_withEdxHigh]
  split
  · exact advancePc_withEdxHigh h _ s
  · refine mapNext_andThen fun t => ?_
    dsimp only
    split
    · next h0 => rw [if_pos (by exact h0)]; exact advancePc_withEdxHigh h _ (t.setEcx _)
    · next h0 => rw [if_neg (by exact h0)]; rfl

theorem execCli_withEdxHigh (h : BitVec 16) (p : Prefixes) (s : State) :
    execCli p (withEdxHigh h s) = mapNext (withEdxHigh h) (execCli p s) :=
  andThen_mapNext (x := sensitiveCheck s) fun _ _ => advancePc_withEdxHigh h _ (clearIf s)

theorem execSti_withEdxHigh (h : BitVec 16) (p : Prefixes) (s : State) :
    execSti p (withEdxHigh h s) = mapNext (withEdxHigh h) (execSti p s) :=
  andThen_mapNext (x := sensitiveCheck s) fun _ _ => advancePc_withEdxHigh h _ (setIf s)

theorem execPopf_withEdxHigh (h : BitVec 16) (p : Prefixes) (s : State) :
    execPopf p (withEdxHigh h s) = mapNext (withEdxHigh h) (execPopf p s) := by
  have hm : mode (withEdxHigh h s) = mode s := rfl
  unfold execPopf
  rw [hm]
  split
  · rfl
  · exact advancePc_withEdxHigh h _ (loadFlags _ s.dropImage)

theorem inputAcc_dx_withEdxHigh (h : BitVec 16) (w : Width) (len : Nat) (s : State) :
    inputAcc w (dxPort (withEdxHigh h s)) len (withEdxHigh h s) =
      mapNext (withEdxHigh h) (inputAcc w (dxPort s) len s) := by
  rw [dxPort_withEdxHigh, inputAcc_withEdxHigh]

theorem outputAcc_dx_withEdxHigh (h : BitVec 16) (w : Width) (len : Nat) (s : State) :
    outputAcc w (dxPort (withEdxHigh h s)) len (withEdxHigh h s) =
      mapNext (withEdxHigh h) (outputAcc w (dxPort s) len s) := by
  rw [dxPort_withEdxHigh, outputAcc_withEdxHigh]

/-- Settles O16: DX is the low half, and every shared operation commutes with replacing the other half. -/
theorem upperEdxTakesNoPart : Obligations.UpperEdxTakesNoPart := by
  intro i h s
  cases i with
  | inAlImm8 p b | inAxImm8 p b | inEaxImm8 p b => exact inputAcc_withEdxHigh h _ _ _ s
  | inAlDx p | inAxDx p | inEaxDx p => exact inputAcc_dx_withEdxHigh h _ _ s
  | outImm8Al p b | outImm8Ax p b | outImm8Eax p b => exact outputAcc_withEdxHigh h _ _ _ s
  | outDxAl p | outDxAx p | outDxEax p => exact outputAcc_dx_withEdxHigh h _ _ s
  | insb p => exact exec_stringInstr_withEdxHigh h .insb p s
  | insw p => exact exec_stringInstr_withEdxHigh h .insw p s
  | insd p => exact exec_stringInstr_withEdxHigh h .insd p s
  | outsb p => exact exec_stringInstr_withEdxHigh h .outsb p s
  | outsw p => exact exec_stringInstr_withEdxHigh h .outsw p s
  | outsd p => exact exec_stringInstr_withEdxHigh h .outsd p s
  | rep p x => exact execRep_withEdxHigh h x p s
  | cli p => exact execCli_withEdxHigh h p s
  | sti p => exact execSti_withEdxHigh h p s
  | popf p => exact execPopf_withEdxHigh h p s

end Sys2Proof.Proofs.EdxHigh
end

section
/-! An instruction that is otherwise ready is refused where its end passes the code segment's limit. -/

namespace Sys2Proof.Proofs.PcPastTop

open Sys2Proof.Machine Sys2Proof.Safety

/-- The advance is refused in any state with the pc and CS of one without room. -/
theorem advancePc_refused_of_eq {len : Nat} {s t : State} (hn : ¬ PcFits len s) (hpc : t.pc = s.pc)
    (hcs : t.cs = s.cs) :
    advancePc len t = .refused .pcPastTop :=
  advancePc_of_not_fits (by unfold PcFits; rwa [hpc, hcs])

section
variable {s : State} {port : Port} {w : Width} {len : Nat} (hr : RangeOk port w) (hp : IoPermitted s port w)
  (hn : ¬ PcFits len s)
include hr hp hn

theorem inputAcc_pcPastTop : inputAcc w port len s = .refused .pcPastTop := by
  rw [inputAcc, ioPermCheck_eq_next (u := ()) |>.2 ⟨hr, hp⟩, andThen_next, portRead_of_range hr, andThen_next,
    writeAcc_eq]
  exact advancePc_refused_of_eq hn rfl rfl

theorem outputAcc_pcPastTop : outputAcc w port len s = .refused .pcPastTop := by
  rw [outputAcc, ioPermCheck_eq_next (u := ()) |>.2 ⟨hr, hp⟩, andThen_next, portWrite_of_range _ hr, andThen_next]
  exact advancePc_refused_of_eq hn rfl rfl

end

section
variable {p : Prefixes} {x : StringOp} {s : State}

theorem exec_stringInstr_pcPastTop (hr : StringReady x p s) (hn : ¬ PcFits (lengthOp p) s) :
    exec (stringInstr p x) s = .refused .pcPastTop := by
  rw [exec_stringInstr, transferElement_eq_next.2 ⟨hr, rfl⟩, andThen_next]
  exact advancePc_refused_of_eq hn (elementDone_pc x p s) (elementDone_cs x p s)

/-- The last iteration of a REP moves pc, and so needs room for it. -/
theorem execRep_pcPastTop (hc : offsetOf (addrSize p s) s.ecx = 1) (hr : StringReady x p s)
    (hn : ¬ PcFits (lengthOpPlusOne p) s) : execRep p x s = .refused .pcPastTop := by
  have hlast : repeatCount (addrSize p s) ((elementDone x p s).setEcx (decrement (addrSize p s) s.ecx)) = 0 := by
    rw [repeatCount_eq_offsetOf, setEcx_ecx, decrement_eq_ecxLess]
    exact (offsetOf_ecxLess_eq_zero _ _).2 hc
  rw [execRep, if_neg (by rw [repeatCount_eq_offsetOf, hc]; decide), transferElement_eq_next.2 ⟨hr, rfl⟩, andThen_next]
  dsimp only
  rw [if_pos hlast]
  exact advancePc_refused_of_eq hn (elementDone_pc x p s) (elementDone_cs x p s)

end

theorem sensitiveCheck_of_permitted {s : State} (h : SensitivePermitted s) : sensitiveCheck s = .next () := by
  rcases sensitiveCheck_spec s with ⟨e, -⟩ | ⟨-, hn⟩
  · exact e
  · exact absurd h hn

/-- Settles O28, by the shape of the instruction: each ends in the advance of pc. -/
theorem pcPastTopRefused : Obligations.PcPastTopRefused := by
  intro i s hn hio hstr hrep hsens hpopf
  cases execShape i s with
  | input port w ht _ he =>
    obtain ⟨hr, hp⟩ := hio _ _ _ ht
    rw [he, inputAcc_pcPastTop hr hp hn]
  | output port w ht _ he =>
    obtain ⟨hr, hp⟩ := hio _ _ _ ht
    rw [he, outputAcc_pcPastTop hr hp hn]
  | string p x hi =>
    subst hi
    rw [instrLength_stringInstr] at hn
    exact exec_stringInstr_pcPastTop (hstr p x rfl) hn
  | rep p x hi =>
    subst hi
    rcases hrep p x rfl with hc | ⟨hc, hr⟩
    · exact (execRep_zero hc).trans (advancePc_of_not_fits hn)
    · exact execRep_pcPastTop hc hr hn
  | cli p hi =>
    subst hi
    show execCli p s = _
    rw [execCli, sensitiveCheck_of_permitted (hsens p (.inl rfl)), andThen_next]
    exact advancePc_refused_of_eq hn rfl rfl
  | sti p hi =>
    subst hi
    show execSti p s = _
    rw [execSti, sensitiveCheck_of_permitted (hsens p (.inr rfl)), andThen_next]
    exact advancePc_refused_of_eq hn rfl rfl
  | popf p hi =>
    subst hi
    show execPopf p s = _
    rw [execPopf, if_neg (hpopf p rfl)]
    exact advancePc_refused_of_eq hn rfl rfl

end Sys2Proof.Proofs.PcPastTop
end

section
/-! What the I/O operations add to the history and change in memory. -/

namespace Sys2Proof.Proofs.MemoryAndHistory

open Sys2Proof.Machine Sys2Proof.Safety Sys2Proof.Proofs.StateFrame

/-! ## The history -/

/-- An element transfer records the one event of its string instruction (spec/41 R135). -/
theorem elementDone_event {x : StringOp} {p : Prefixes} {s : State} (h : StringReady x p s) :
    ∃ v, EventOk ⟨(stringShape x).1, dxPort s, (stringShape x).2, v⟩ ∧
      (elementDone x p s).history = s.history ++ [⟨(stringShape x).1, dxPort s, (stringShape x).2, v⟩] := by
  obtain ⟨hr, -, -⟩ := h
  rcases read_or_write x with hx | hx
  · rw [elementDone_of_read hx, hx]; exact ⟨_, ⟨hr, answerOf_lt _ _ _⟩, rfl⟩
  · rw [elementDone_of_write hx, hx]; exact ⟨_, ⟨hr, elementValue_lt _ _ _⟩, rfl⟩

/-- Settles O13, by cases on what completed. -/
theorem historyGrowsByTheTransfer : Obligations.HistoryGrowsByTheTransfer := by
  intro i s t h
  cases exec_next h with
  | input port w ht _ hr _ _ he => subst he; rw [ht]; exact ⟨hr, _, ⟨hr, answerOf_lt _ _ _⟩, rfl⟩
  | output port w ht _ hr _ _ he => subst he; rw [ht]; exact ⟨hr, _, ⟨hr, lowBits_lt _ _⟩, rfl⟩
  | string p x hi hr _ he => subst hi he; rw [ioTransfer_stringInstr]; exact ⟨hr.1, elementDone_event hr⟩
  | rep p x hi hc hr _ he => subst hi he; rw [ioTransfer_rep x hc]; exact ⟨hr.1, elementDone_event hr⟩
  | repZero p x hi hc _ he => subst hi he; rw [ioTransfer, if_pos hc]; rfl
  | cli p hi _ _ he | sti p hi _ _ he | popf p hi _ _ he => subst hi he; rfl

/-! ## Memory -/

theorem elementDone_mem_of_write {x : StringOp} (hx : (stringShape x).1 = .write) (p : Prefixes) (s : State) :
    (elementDone x p s).mem = s.mem := by
  rw [elementDone_of_write hx]; rfl

/-- A ready element transfer leaves every byte of the program text: an INS whose destination touches it is not ready
(spec/20 R74). -/
theorem readByte_elementDone_of_inText {x : StringOp} {p : Prefixes} {s : State} (h : StringReady x p s) {a : Dword}
    (ha : inText s a = true) : readByte (elementDone x p s).mem a.toNat = readByte s.mem a.toNat := by
  rcases read_or_write x with hx | hx
  · obtain ⟨-, -, hd⟩ := h
    rw [hx] at hd
    obtain ⟨-, -, htext⟩ := hd
    rw [elementDone_of_read hx]
    refine readByte_writeBytes_outside _ _ _ _ fun i hi heq => ?_
    have hout : inText s a = false := BitVec.eq_of_toNat_eq heq ▸ htext i hi
    rw [ha] at hout; cases hout
  · rw [elementDone_mem_of_write hx]

/-- INS alone stores to memory. -/
theorem exec_mem {i : Instr} {s t : State} (h : exec i s = .next t) (hi : storesMemory i = false) : t.mem = s.mem := by
  have hel : ∀ x p, ((stringShape x).1 == .read) = false → (elementDone x p s).mem = s.mem := fun x p hx =>
    elementDone_mem_of_write ((read_or_write x).resolve_left (by simpa using hx)) p s
  cases exec_next h with
  | string p x hp _ _ he => subst hp he; exact hel x p (storesMemory_stringInstr p x ▸ hi)
  | rep p x hp _ _ _ he => subst hp he; exact hel x p hi
  | input _ _ _ _ _ _ _ he | output _ _ _ _ _ _ _ he | repZero _ _ _ _ _ he | cli _ _ _ _ he | sti _ _ _ _ he
  | popf _ _ _ _ he => subst he; rfl

theorem exec_readByte_of_inText {i : Instr} {s t : State} (h : exec i s = .next t) {a : Dword}
    (ha : inText s a = true) : readByte t.mem a.toNat = readByte s.mem a.toNat := by
  cases exec_next h with
  | string _ _ _ hr _ he | rep _ _ _ _ hr _ he => subst he; exact readByte_elementDone_of_inText hr ha
  | input _ _ _ _ _ _ _ he | output _ _ _ _ _ _ _ he | repZero _ _ _ _ _ he | cli _ _ _ _ he | sti _ _ _ _ he
  | popf _ _ _ _ he => subst he; rfl

/-- Settles O14, by the one operation that stores: an element transfer of INS. -/
theorem memoryWritersAndText : Obligations.MemoryWritersAndText :=
  fun _ _ _ h => ⟨exec_mem h, fun _ ha => exec_readByte_of_inText h ha⟩

/-- A group read after a group store at the same place gives the low bytes stored (spec/20 R55). -/
theorem readBytes_writeBytes_same {m : Memory} (hm : m.wf) (a : Dword) (w : Width) (v : Dword) :
    readBytes (writeBytes m a (widthBytes w) v) a (widthBytes w) = lowBits w v := by
  have hn := widthBytes_le w
  rw [← truncTo_eq_lowBits]
  apply BitVec.eq_of_getLsbD_eq
  intro i _
  rw [getLsbD_readBytes _ _ _ _ hn, getLsbD_truncTo]
  by_cases hi : i < 8 * widthBytes w
  · have hbyte : ((v >>> (8 * (i / 8))).setWidth 8).getLsbD (i % 8) = v.getLsbD i := by
      rw [BitVec.getLsbD_setWidth, BitVec.getLsbD_ushiftRight, Nat.div_add_mod]
      simp [Nat.mod_lt]
    rw [readByte_writeBytes_inside hm a (by omega) v (by omega), hbyte]
  · simp [hi]

/-- Settles O47, by the laws of a group store. -/
theorem memReadAfterMemWrite : Obligations.MemReadAfterMemWrite := by
  intro s t g off v w hm hread h
  obtain ⟨⟨-, hoff, -⟩, rfl⟩ := memWrite_eq_next.1 h
  have hn := widthBytes_le w
  refine ⟨memRead_eq_next.2 ?_, wf_writeBytes hm _ _ _, fun i hi => readByte_writeBytes_inside hm _ (by omega) v hi,
    fun a ha => readByte_writeBytes_outside _ _ _ v ha⟩
  rw [setMem_segReg]
  exact ⟨⟨hread, hoff⟩, (readBytes_writeBytes_same hm _ w v).symm⟩

end Sys2Proof.Proofs.MemoryAndHistory
end

section
/-! The two protection mechanisms: the IOPL gate and the I/O permission bit map. -/

namespace Sys2Proof.Proofs.Permission

open Sys2Proof.Machine Sys2Proof.Safety

/-! ## Where the map decides -/

/-- Where the map is consulted the check is the map's (spec/20 R61, R62). -/
theorem ioPermCheck_of_mapConsulted {s : State} {p : Port} {w : Width} (hr : RangeOk p w) (hc : MapConsulted s) :
    ioPermCheck s p w = mapCheck s p.toNat (widthBytes w) := by
  unfold ioPermCheck
  rw [if_pos ((portRangeOk_iff p w).2 hr)]
  rcases hc with ⟨hm, hlt⟩ | hm
  · simp only [hm, if_neg (Nat.not_le.2 hlt)]
  · simp only [hm]

theorem not_real_of_mapConsulted {s : State} (hc : MapConsulted s) : mode s ≠ .real := by
  rcases hc with ⟨hm, -⟩ | hm <;> simp [hm]

/-- A consulted map permits the transfer or nothing does. -/
theorem mapPermits_of_ioPermitted {s : State} {p : Port} {w : Width} (hc : MapConsulted s) (hp : IoPermitted s p w) :
    MapPermits s p w := by
  rcases hp with hreal | ⟨hprot, hle⟩ | ⟨-, hmap⟩
  · exact absurd hreal (not_real_of_mapConsulted hc)
  · rcases hc with ⟨-, hlt⟩ | hv86
    · exact absurd hle (Nat.not_le.2 hlt)
    · rw [hprot] at hv86; cases hv86
  · exact hmap

/-- A consulted map that can be read and forbids the transfer raises GP(0) (spec/20 R68). -/
theorem ioPermCheck_of_map_forbids {s : State} {p : Port} {w : Width} (hr : RangeOk p w) (hc : MapConsulted s)
    (ht : TssReadable s) (hn : ¬ MapPermits s p w) : ioPermCheck s p w = .fault (gpFault s) :=
  ioPermCheck_eq_fault.2 ⟨rfl, hr, fun hp => hn (mapPermits_of_ioPermitted hc hp), hc, ht⟩

/-! ## The map does not depend on EFLAGS -/

theorem testPorts_setEflags (e : Dword) (s : State) (base k a : Nat) :
    testPorts (s.setEflags e) base k a = testPorts s base k a := by
  induction k generalizing a with
  | zero => rfl
  | succ k ih => unfold testPorts; simp only [ih]; rfl

theorem mapCheck_setEflags (e : Dword) (s : State) (p n : Nat) : mapCheck (s.setEflags e) p n = mapCheck s p n := by
  unfold mapCheck; simp only [testPorts_setEflags]; rfl

/-! ## The checks -/

/-- In real mode nothing faults: every fault is that of a check, and both checks pass. -/
theorem exec_ne_fault_of_real {s : State} (hm : mode s = .real) (i : Instr) (r : Fault) : exec i s ≠ .fault r := by
  intro h
  rcases exec_fault h with ⟨_, _, _, -, hio⟩ | ⟨-, hsens⟩
  · obtain ⟨-, -, -, hc, -⟩ := ioPermCheck_eq_fault.1 hio
    exact not_real_of_mapConsulted hc hm
  · rw [PcPastTop.sensitiveCheck_of_permitted (.inl hm)] at hsens; cases hsens

/-- Settles O17, by the gate of each check. -/
theorem protectionOperatesOutsideRealModeOnly : Obligations.ProtectionOperatesOutsideRealModeOnly := by
  intro s
  constructor
  · intro hm
    exact ⟨PcPastTop.sensitiveCheck_of_permitted (.inl hm), fun p w hr => ioPermCheck_eq_next.2 ⟨hr, .inl hm⟩,
      exec_ne_fault_of_real hm⟩
  · intro hm
    refine ⟨fun hlt => ?_, fun p w hr hc r hf => (ioPermCheck_of_mapConsulted hr hc).trans hf⟩
    rcases sensitiveCheck_spec s with ⟨-, hreal | hle⟩ | ⟨e, -⟩
    · exact absurd hreal hm
    · exact absurd hle (Nat.not_le.2 hlt)
    · exact ⟨_, e⟩

/-- Settles O18: the gate alone permits, and a failed gate consults the map. -/
theorem ioplGateBeforeMap : Obligations.IoplGateBeforeMap :=
  fun _ _ _ hm hr =>
    ⟨fun hle _ _ => ioPermCheck_eq_next.2 ⟨hr, .inr (.inl ⟨hm, hle⟩)⟩,
      fun hlt => ioPermCheck_of_mapConsulted hr (.inl ⟨hm, hlt⟩)⟩

/-- Settles O19: VM, bit 17, stays, and the map reads no flag. -/
theorem v86IgnoresIopl : Obligations.V86IgnoresIopl := by
  intro s p w hm hr
  have hmap := ioPermCheck_of_mapConsulted hr (.inr hm)
  refine ⟨hmap, fun e he => ?_⟩
  have hvm : (s.setEflags e).eflags.getLsbD 17 = s.eflags.getLsbD 17 := he 17 (by decide) (by decide)
  have hm' : mode (s.setEflags e) = .v86 := (mode_congr (setEflags_cr0Pe s e) hvm).trans hm
  show ioPermCheck (s.setEflags e) p w = _
  rw [ioPermCheck_of_mapConsulted hr (.inr hm'), hmap, mapCheck_setEflags]

/-- Settles O20, by the three answers of the check. -/
theorem permissionCheckIsTheRules : Obligations.PermissionCheckIsTheRules := by
  intro s p w hr
  refine ⟨ioPermCheck_eq_next.trans (and_iff_right hr), ?_⟩
  rcases ioPermCheck_spec (s := s) hr with ⟨-, hp⟩ | ⟨e, -, -, ht⟩ | ⟨e, -, -, ht⟩
  · exact ⟨fun hn => absurd hp hn, fun hn => absurd hp hn⟩
  · exact ⟨fun _ _ => e, fun _ hn => absurd ht hn⟩
  · exact ⟨fun _ h => absurd h ht, fun _ _ => e⟩

/-- Settles O21: port `a` is mapped by byte `a / 8`, and the last byte within the limit is byte 31. -/
theorem firstTwoHundredFiftySixPorts : Obligations.FirstTwoHundredFiftySixPorts := by
  intro s p w hc ht h386 hx hlim hzero hr
  have hw := widthBytes_pos w
  constructor
  · intro hle
    have hfree : ∀ i < widthBytes w, PortFree s (p.toNat + i) := fun i hi =>
      ⟨by omega, by rw [hzero _ (by omega)]; exact BitVec.getLsbD_zero⟩
    have hmap : MapPermits s p w := ⟨h386, by omega, by simp [hx], hfree⟩
    exact ioPermCheck_eq_next.2 ⟨hr, .inr (.inr ⟨ht, hmap⟩)⟩
  · intro hgt
    refine ioPermCheck_of_map_forbids hr hc ht fun ⟨_, _, _, hfree⟩ => ?_
    obtain ⟨hlast, -⟩ := hfree (widthBytes w - 1) (by omega)
    omega

/-- Settles O23: the extra byte is one more condition on the map. -/
theorem extraByteOnlyDenies : Obligations.ExtraByteOnlyDenies := by
  intro s q p w _ h
  obtain ⟨hr, hp⟩ := ioPermCheck_eq_next.1 h
  refine ioPermCheck_eq_next.2 ⟨hr, ?_⟩
  rcases hp with hreal | hgate | ⟨ht, h386, hbase, -, hfree⟩
  · exact .inl hreal
  · exact .inr (.inl hgate)
  · exact .inr (.inr ⟨ht, h386, hbase, nofun, hfree⟩)

/-! ## The check in every I/O instruction -/

/-- Settles O22: a base at or past the limit is no map (spec/20 R67). -/
theorem noMapDeniesEveryPort : Obligations.NoMapDeniesEveryPort := by
  intro i s dir port w hio hr hc ht hbase
  exact (exec_of_check hio).1 _ (ioPermCheck_of_map_forbids hr hc ht fun ⟨_, hlt, _⟩ => Nat.not_le.2 hlt hbase)

/-- Settles O26, by the check's first test. -/
theorem portsPastTopRefused : Obligations.PortsPastTopRefused :=
  fun _ _ _ _ _ hio hr => (exec_of_check hio).2 _ (ioPermCheck_out_of_range hr)

/-- Settles O27, by the check's answer on an unreadable TSS. -/
theorem unreadableTssRefused : Obligations.UnreadableTssRefused := by
  intro i s dir port w hio hr hn ht
  obtain ⟨-, -, hrefused⟩ := permissionCheckIsTheRules s port w hr
  exact (exec_of_check hio).2 _ (hrefused hn ht)

end Sys2Proof.Proofs.Permission
end

section
/-! The decoder and the encoder: what the decoder does with an opcode and with the bytes before it, from which its round
trip, its lengths, its refusals and what a step executes follow. -/

namespace Sys2Proof.Proofs.Encoding

open Sys2Proof.Machine Sys2Proof.Safety

/-! ## Operand sizes -/

theorem effectiveSize_eq_s16 {d : Size} {p : Prefixes} : effectiveSize d p.opSize = .s16 ↔ wantsSize16 d p = true := by
  unfold wantsSize16
  cases d <;> cases p.opSize <;> decide

theorem effectiveSize_eq_s32 {d : Size} {p : Prefixes} : effectiveSize d p.opSize = .s32 ↔ wantsSize32 d p = true := by
  unfold wantsSize32
  cases d <;> cases p.opSize <;> decide

/-! ## Opcodes -/

theorem prefixByteOf_eq_none {b : Byte} : prefixByteOf b = none ↔ ¬ SameKind b b ∧ b ≠ 0xF0 ∧ b ≠ 0xF2 := by
  revert b
  unfold SameKind
  decide

/-- The first byte that is not in the table of R81 is looked up as the opcode (spec/30 R86). -/
theorem decodeFrom_opcode {op : Byte} (hop : prefixByteOf op = none) (d : Size) (ps : PrefixState) (rest : List Byte) :
    decodeFrom d ps (op :: rest) = decodeOpcode d ps op rest := by
  simp only [decodeFrom, hop]

/-- An opcode of no string instruction, without REP. -/
theorem decodeOpcode_plain {d : Size} {p : Prefixes} {op : Byte} (hop : ∀ sz, stringOpOf sz op = none) (rest : List Byte) :
    decodeOpcode d ⟨false, p⟩ op rest = decodePlain (effectiveSize d p.opSize) p op rest := by
  simp only [decodeOpcode, hop]
  cases decodePlain (effectiveSize d p.opSize) p op rest <;> rfl

theorem stringOpOf_plainOpcodes : ∀ op ∈ plainOpcodes, ∀ sz, stringOpOf sz op = none := by
  rintro op hop (_ | _) <;> revert op <;> decide

theorem stringOpOf_immediateOpcodes : ∀ op ∈ immediateOpcodes, ∀ sz, stringOpOf sz op = none := by
  rintro op hop (_ | _) <;> revert op <;> decide

theorem prefixByteOf_plainOpcodes : ∀ op ∈ plainOpcodes, prefixByteOf op = none := by decide

theorem prefixByteOf_immediateOpcodes : ∀ op ∈ immediateOpcodes, prefixByteOf op = none := by decide

/-- The opcodes of R85 without an immediate: an instruction of format `OP` that the size in force allows. -/
theorem decodePlain_of_plain {op : Byte} (hop : op ∈ plainOpcodes) (d : Size) (p : Prefixes) :
    ∃ i, (∀ rest, decodePlain (effectiveSize d p.opSize) p op rest = .ok i rest) ∧
      wellFormed d i = true ∧ instrLength i = lengthOp p := by
  simp only [plainOpcodes, List.mem_cons, List.not_mem_nil, or_false] at hop
  cases hsz : effectiveSize d p.opSize
  all_goals
    rcases hop with rfl | rfl | rfl | rfl | rfl | rfl | rfl <;>
      exact ⟨_, fun _ => rfl, by simp only [wellFormed, ← effectiveSize_eq_s16, ← effectiveSize_eq_s32, hsz], rfl⟩

/-- The opcodes of R85 with an immediate: an instruction of format `OP_IB` that the size in force allows. -/
theorem decodePlain_of_immediate {op : Byte} (hop : op ∈ immediateOpcodes) (d : Size) (p : Prefixes) :
    ∃ f, (∀ rest, decodePlain (effectiveSize d p.opSize) p op rest = withImm8 rest f) ∧
      ∀ imm, wellFormed d (f imm) = true ∧ instrLength (f imm) = lengthOpPlusOne p := by
  simp only [immediateOpcodes, List.mem_cons, List.not_mem_nil, or_false] at hop
  cases hsz : effectiveSize d p.opSize
  all_goals
    rcases hop with rfl | rfl | rfl | rfl <;>
      exact ⟨_, fun _ => rfl, fun _ =>
        ⟨by simp only [wellFormed, ← effectiveSize_eq_s16, ← effectiveSize_eq_s32, hsz], rfl⟩⟩

/-- Every other opcode is foreign to the plain table (spec/30 R88). -/
theorem decodePlain_of_foreign {op : Byte} (hp : op ∉ plainOpcodes) (hi : op ∉ immediateOpcodes) (sz : Size) (p : Prefixes)
    (rest : List Byte) : decodePlain sz p op rest = .error (.foreignOpcode op) := by
  have mem {n : Nat} (h : op.toNat = n) : op = BitVec.ofNat 8 n := by rw [← h, BitVec.ofNat_toNat, BitVec.setWidth_eq]
  unfold decodePlain
  split
  case h_12 => rfl
  all_goals
    next h => exact absurd (mem h) (by rintro rfl; revert hp hi; decide)

/-- A string opcode, repeated or not, is read back with the operand size the instruction needs. -/
theorem decodeFrom_stringOpcode {d : Size} {p : Prefixes} {x : StringOp} (hw : wellFormedString d p x = true) (rep : Bool)
    (rest : List Byte) :
    decodeFrom d ⟨rep, p⟩ (stringOpcode x :: rest) = .ok (if rep then .rep p x else stringInstr p x) rest := by
  have hop : stringOpOf (effectiveSize d p.opSize) (stringOpcode x) = some x := by
    cases x with
    | insb | outsb => rfl
    | insw | outsw => rw [effectiveSize_eq_s16.2 hw]; rfl
    | insd | outsd => rw [effectiveSize_eq_s32.2 hw]; rfl
  rw [decodeFrom_opcode (by cases x <;> rfl)]
  simp only [decodeOpcode, hop]

/-! ## The round trip -/

section
variable {d : Size} {p : Prefixes} {op : Byte} {rest : List Byte}

theorem decode_op (hop : op ∈ plainOpcodes) :
    decode d (encodePrefixes p ++ [op] ++ rest) = decodePlain (effectiveSize d p.opSize) p op rest := by
  rw [List.append_assoc, decode, decodeFrom_encodePrefixes]
  exact (decodeFrom_opcode (prefixByteOf_plainOpcodes op hop) ..).trans
    (decodeOpcode_plain (stringOpOf_plainOpcodes op hop) _)

theorem decode_opImm8 (hop : op ∈ immediateOpcodes) (imm : Byte) :
    decode d (encodePrefixes p ++ [op, imm] ++ rest) = decodePlain (effectiveSize d p.opSize) p op (imm :: rest) := by
  rw [List.append_assoc, decode, decodeFrom_encodePrefixes]
  exact (decodeFrom_opcode (prefixByteOf_immediateOpcodes op hop) ..).trans
    (decodeOpcode_plain (stringOpOf_immediateOpcodes op hop) _)

theorem decode_string {x : StringOp} (hw : wellFormedString d p x = true) :
    decode d (encodePrefixes p ++ [stringOpcode x] ++ rest) = .ok (stringInstr p x) rest := by
  rw [List.append_assoc, decode, decodeFrom_encodePrefixes]
  exact decodeFrom_stringOpcode hw false rest

theorem decode_repString {x : StringOp} (hw : wellFormedString d p x = true) :
    decode d (0xF3 :: (encodePrefixes p ++ [stringOpcode x]) ++ rest) = .ok (.rep p x) rest := by
  have hrep : decode d (0xF3 :: (encodePrefixes p ++ [stringOpcode x]) ++ rest) =
      decodeFrom d ⟨true, noPrefixes⟩ (encodePrefixes p ++ [stringOpcode x] ++ rest) := rfl
  rw [hrep, List.append_assoc, decodeFrom_encodePrefixes]
  exact decodeFrom_stringOpcode hw true rest

end

/-- Settles O1, by the format of the instruction and the operand size it needs. -/
theorem decodeOfEncode : Obligations.DecodeOfEncode := by
  intro d i rest h
  cases i with
  | inAlImm8 p imm | outImm8Al p imm => exact decode_opImm8 (by decide) imm
  | inAxImm8 p imm | outImm8Ax p imm =>
    exact (decode_opImm8 (by decide) imm).trans (by rw [effectiveSize_eq_s16.2 h]; rfl)
  | inEaxImm8 p imm | outImm8Eax p imm =>
    exact (decode_opImm8 (by decide) imm).trans (by rw [effectiveSize_eq_s32.2 h]; rfl)
  | inAlDx p | outDxAl p | cli p | sti p | popf p => exact decode_op (by decide)
  | inAxDx p | outDxAx p => exact (decode_op (by decide)).trans (by rw [effectiveSize_eq_s16.2 h]; rfl)
  | inEaxDx p | outDxEax p => exact (decode_op (by decide)).trans (by rw [effectiveSize_eq_s32.2 h]; rfl)
  | insb p | insw p | insd p | outsb p | outsw p | outsd p => exact decode_string h
  | rep p x => exact decode_repString h

/-! ## What the decoder answers -/

/-- The number of prefixes noted, REP among them. -/
def notedCount (ps : PrefixState) : Nat := prefixCount ps.pfx + ps.rep.toNat

theorem notedCount_of_notePrefix {ps qs : PrefixState} {k : PrefixByte} (h : notePrefix ps k = .ok qs) :
    notedCount qs = notedCount ps + 1 := by
  obtain ⟨r, o, a, g⟩ := ps
  cases k with
  | opSize => cases o <;> cases h; simp +arith [notedCount, prefixCount]
  | addrSize => cases a <;> cases h; simp +arith [notedCount, prefixCount]
  | rep => cases r <;> cases h; rfl
  | repne | lock => cases h
  | seg s => cases g <;> cases h; simp +arith [notedCount, prefixCount]

theorem withImm8_eq_ok {rest rest' : List Byte} {f : Byte → Instr} {i : Instr} :
    withImm8 rest f = .ok i rest' ↔ ∃ imm, rest = imm :: rest' ∧ i = f imm := by
  cases rest <;> simp [withImm8, eq_comm, and_comm]

theorem wellFormed_stringInstr (d : Size) (p : Prefixes) (x : StringOp) :
    wellFormed d (stringInstr p x) = wellFormedString d p x := by
  cases x <;> rfl

theorem wellFormedString_of_stringOpOf {d : Size} {p : Prefixes} {op : Byte} {x : StringOp}
    (h : stringOpOf (effectiveSize d p.opSize) op = some x) : wellFormedString d p x = true := by
  unfold stringOpOf at h
  split at h
  case h_1 | h_3 => cases h; rfl
  case h_2 | h_4 =>
    cases hsz : effectiveSize d p.opSize <;> rw [hsz] at h <;> cases h
    · exact effectiveSize_eq_s16.1 hsz
    · exact effectiveSize_eq_s32.1 hsz
  case h_5 => cases h

/-- What the opcode lookup answers is well-formed and has as its length the prefixes noted and the bytes used. -/
theorem decodeOpcode_eq_ok {d : Size} {ps : PrefixState} {op : Byte} {rest rest' : List Byte} {i : Instr}
    (h : decodeOpcode d ps op rest = .ok i rest') :
    wellFormed d i = true ∧ ∃ used, op :: rest = used ++ rest' ∧ notedCount ps + used.length = instrLength i := by
  obtain ⟨r, p⟩ := ps
  unfold decodeOpcode at h
  split at h
  next x hx =>
    have hw := wellFormedString_of_stringOpOf hx
    cases r <;> cases h
    · exact ⟨(wellFormed_stringInstr ..).trans hw, [op], rfl, (instrLength_stringInstr p x).symm⟩
    · exact ⟨hw, [op], rfl, rfl⟩
  next =>
    split at h
    next j rest'' hj =>
      cases r <;> cases h
      by_cases hp : op ∈ plainOpcodes
      · obtain ⟨_, hdec, hw, hlen⟩ := decodePlain_of_plain hp d p
        cases (hdec rest).symm.trans hj
        exact ⟨hw, [op], rfl, hlen.symm⟩
      by_cases hi : op ∈ immediateOpcodes
      · obtain ⟨f, hdec, hf⟩ := decodePlain_of_immediate hi d p
        obtain ⟨imm, rfl, rfl⟩ := withImm8_eq_ok.1 ((hdec rest).symm.trans hj)
        exact ⟨(hf imm).1, [op, imm], rfl, (hf imm).2.symm⟩
      · cases (decodePlain_of_foreign hp hi ..).symm.trans hj
    next => cases h

/-- The same of decoding from any prefixes on, by induction on the bytes. -/
theorem decodeFrom_eq_ok {d : Size} {ps : PrefixState} {bytes rest : List Byte} {i : Instr}
    (h : decodeFrom d ps bytes = .ok i rest) :
    wellFormed d i = true ∧ ∃ used, bytes = used ++ rest ∧ notedCount ps + used.length = instrLength i := by
  induction bytes generalizing ps with
  | nil => cases h
  | cons b bs ih =>
    unfold decodeFrom at h
    split at h
    next k _ =>
      split at h
      next qs hqs =>
        obtain ⟨hw, used, rfl, hlen⟩ := ih h
        refine ⟨hw, b :: used, rfl, ?_⟩
        rw [← hlen, notedCount_of_notePrefix hqs, List.length_cons]
        omega
      next => cases h
    next => exact decodeOpcode_eq_ok h

/-- Every instruction's encoding has its length, 1 to 7 bytes (spec/30 R87): the lemmas per instruction, put together. -/
theorem encodedLength : ∀ i : Instr, Laws.EncodedLength.Statement i
  | .inAlImm8 p b => Laws.EncodedLength.inAlImm8 p b
  | .inAxImm8 p b => Laws.EncodedLength.inAxImm8 p b
  | .inEaxImm8 p b => Laws.EncodedLength.inEaxImm8 p b
  | .inAlDx p => Laws.EncodedLength.inAlDx p
  | .inAxDx p => Laws.EncodedLength.inAxDx p
  | .inEaxDx p => Laws.EncodedLength.inEaxDx p
  | .outImm8Al p b => Laws.EncodedLength.outImm8Al p b
  | .outImm8Ax p b => Laws.EncodedLength.outImm8Ax p b
  | .outImm8Eax p b => Laws.EncodedLength.outImm8Eax p b
  | .outDxAl p => Laws.EncodedLength.outDxAl p
  | .outDxAx p => Laws.EncodedLength.outDxAx p
  | .outDxEax p => Laws.EncodedLength.outDxEax p
  | .insb p => Laws.EncodedLength.insb p
  | .insw p => Laws.EncodedLength.insw p
  | .insd p => Laws.EncodedLength.insd p
  | .outsb p => Laws.EncodedLength.outsb p
  | .outsw p => Laws.EncodedLength.outsw p
  | .outsd p => Laws.EncodedLength.outsd p
  | .rep p x => Laws.EncodedLength.rep p x
  | .cli p => Laws.EncodedLength.cli p
  | .sti p => Laws.EncodedLength.sti p
  | .popf p => Laws.EncodedLength.popf p

/-- Settles O2, by induction on the bytes from any prefixes on. -/
theorem decodedIsWellFormed : Obligations.DecodedIsWellFormed := by
  intro d bytes rest i h
  obtain ⟨hw, used, hbytes, hlen⟩ := decodeFrom_eq_ok h
  obtain ⟨-, hpos, hle⟩ := encodedLength i
  exact ⟨hw, hpos, hle, used, hbytes, (Nat.zero_add _).symm.trans hlen⟩

/-! ## The order of prefixes -/

theorem sameKind_symm {b c : Byte} (h : SameKind b c) : SameKind c b := by
  obtain ⟨g, hg, hb, hc⟩ := h
  exact ⟨g, hg, hc, hb⟩

/-- The table of R81 read the other way: each kind's byte. -/
def prefixCode : PrefixByte → Byte
  | .opSize => 0x66
  | .addrSize => 0x67
  | .rep => 0xF3
  | .repne => 0xF2
  | .lock => 0xF0
  | .seg s => segByte s

theorem eq_prefixCode {b : Byte} {k : PrefixByte} (h : prefixByteOf b = some k) : b = prefixCode k := by
  unfold prefixByteOf at h
  split at h <;> cases h <;> exact BitVec.eq_of_toNat_eq ‹_›

theorem sameKind_segByte (g h : Seg) : SameKind (segByte g) (segByte h) :=
  ⟨[0x26, 0x2E, 0x36, 0x3E, 0x64, 0x65], by decide, by cases g <;> decide, by cases h <;> decide⟩

/-- An admitted byte stands in the table of R81, neither as LOCK nor as REPNE. -/
theorem exists_prefixByteOf {b : Byte} (hb : SameKind b b) :
    ∃ k, prefixByteOf b = some k ∧ k ≠ .repne ∧ k ≠ .lock := by
  rw [sameKind_self_iff] at hb
  simp only [List.mem_cons, List.not_mem_nil, or_false] at hb
  rcases hb with rfl | rfl | rfl | rfl | rfl | rfl | rfl | rfl | rfl <;> exact ⟨_, rfl, nofun, nofun⟩

/-- Decoding two bytes of the table notes the one and then the other. -/
theorem decodeFrom_two_prefixes {b c : Byte} {j k : PrefixByte} (hb : prefixByteOf b = some j)
    (hc : prefixByteOf c = some k) (d : Size) (st : PrefixState) (tail : List Byte) :
    decodeFrom d st (b :: c :: tail) =
      match (notePrefix st j).bind (notePrefix · k) with
      | .ok st' => decodeFrom d st' tail
      | .error e => .error e := by
  simp only [decodeFrom, hb, hc]
  cases notePrefix st j <;> rfl

/-- Two bytes of different kinds may change places. -/
theorem decodeFrom_swap {b c : Byte} (hb : SameKind b b) (hc : SameKind c c) (hbc : ¬ SameKind b c) (d : Size)
    (st : PrefixState) (tail : List Byte) : decodeFrom d st (b :: c :: tail) = decodeFrom d st (c :: b :: tail) := by
  obtain ⟨j, hj, hjn⟩ := exists_prefixByteOf hb
  obtain ⟨k, hk, hkn⟩ := exists_prefixByteOf hc
  have hne : j ≠ k := by
    rintro rfl
    rw [eq_prefixCode hj, ← eq_prefixCode hk] at hbc
    exact hbc hc
  have hseg : ∀ g h, ¬ (j = .seg g ∧ k = .seg h) := by
    rintro g h ⟨rfl, rfl⟩
    rw [eq_prefixCode hj, eq_prefixCode hk] at hbc
    exact hbc (sameKind_segByte g h)
  rw [decodeFrom_two_prefixes hj hk, decodeFrom_two_prefixes hk hj, notePrefix_comm hne hseg hjn hkn]

theorem admittedPrefixes_perm {ps qs : List Byte} (hp : AdmittedPrefixes ps) (h : ps.Perm qs) : AdmittedPrefixes qs :=
  ⟨fun b hb => hp.1 b (h.mem_iff.2 hb), (h.pairwise_iff fun hn hs => hn (sameKind_symm hs)).1 hp.2⟩

theorem admittedPrefixes_of_cons {b : Byte} {ps : List Byte} (hp : AdmittedPrefixes (b :: ps)) : AdmittedPrefixes ps :=
  ⟨fun c hc => hp.1 c (List.mem_cons_of_mem b hc), hp.2.of_cons⟩

/-- From any prefixes on, a permutation of an admitted list decodes alike: by induction on the permutation. -/
theorem decodeFrom_perm {ps qs : List Byte} (h : ps.Perm qs) (hp : AdmittedPrefixes ps) (d : Size) (st : PrefixState)
    (tail : List Byte) : decodeFrom d st (ps ++ tail) = decodeFrom d st (qs ++ tail) := by
  induction h generalizing st with
  | nil => rfl
  | cons b _ ih =>
    obtain ⟨k, hk, -⟩ := exists_prefixByteOf (hp.1 b (by simp))
    simp only [List.cons_append, decodeFrom, hk]
    cases notePrefix st k with
    | ok st' => exact ih (admittedPrefixes_of_cons hp) st'
    | error e => rfl
  | swap b c l =>
    obtain ⟨hkind, hdiff⟩ := hp
    exact decodeFrom_swap (hkind c (by simp)) (hkind b (by simp)) (List.rel_of_pairwise_cons hdiff (by simp)) d st _
  | trans h₁ _ ih₁ ih₂ => exact (ih₁ hp st).trans (ih₂ (admittedPrefixes_perm hp h₁) st)

/-- Settles O3, by induction on the permutation: two prefixes that change places note the same. -/
theorem prefixOrderIsFree : Obligations.PrefixOrderIsFree :=
  fun d _ _ tail h hp => decodeFrom_perm h hp d _ tail

/-! ## Refusals -/

theorem noted_noPrefixes (b : Byte) : noted ⟨false, noPrefixes⟩ b = false := by
  unfold noted
  split <;> rfl

theorem stringOpOf_of_not_mem {op : Byte} (hop : op ∉ stringOpcodes) (sz : Size) : stringOpOf sz op = none := by
  revert op
  cases sz <;> decide

section
variable {d : Size} {ps : PrefixState} {op : Byte}

/-- REP may not stand before an opcode that is not a string instruction's (spec/30 R89). -/
theorem decodeFrom_repBeforeNonString {i : Instr} {rest rest' : List Byte} (hrep : ps.rep = true)
    (hpre : prefixByteOf op = none) (hop : ∀ sz, stringOpOf sz op = none)
    (hdec : decodePlain (effectiveSize d ps.pfx.opSize) ps.pfx op rest = .ok i rest') :
    decodeFrom d ps (op :: rest) = .error .repBeforeNonString := by
  rw [decodeFrom_opcode hpre]
  simp only [decodeOpcode, hop, hdec, hrep, if_true]

/-- What the plain table refuses is refused, REP or not. -/
theorem decodeFrom_plain_error {e : DecodeError} {rest : List Byte} (hpre : prefixByteOf op = none)
    (hop : ∀ sz, stringOpOf sz op = none)
    (hdec : decodePlain (effectiveSize d ps.pfx.opSize) ps.pfx op rest = .error e) :
    decodeFrom d ps (op :: rest) = .error e := by
  rw [decodeFrom_opcode hpre]
  simp only [decodeOpcode, hop, hdec]

end

/-- Settles O4: an admitted list is noted byte by byte, and what follows it is refused from there. -/
theorem foreignBytesRefused : Obligations.ForeignBytesRefused := by
  intro d ps rest hp
  obtain ⟨qs, hqs, hn⟩ := decodeFrom_admitted (d := d) hp ⟨false, noPrefixes⟩ fun b _ => noted_noPrefixes b
  have hdec (tail : List Byte) : decode d (ps ++ tail) = decodeFrom d qs tail := hqs tail
  refine ⟨hdec _, hdec _, fun b hb c hbc => ?_, fun hrep => ?_, fun op hop => ?_, ?_, fun op hop => ?_⟩
  · exact (hdec _).trans (decodeFrom_repeated (sameKind_right hbc) ((hn c).2 (.inr ⟨b, hb, hbc⟩)) rest)
  · have hr : qs.rep = true := (hn 0xF3).2 (.inr ⟨_, hrep, hp.1 _ hrep⟩)
    refine ⟨fun op hop => ?_, fun op hop imm => ?_⟩
    · obtain ⟨_, hplain, -⟩ := decodePlain_of_plain hop d qs.pfx
      exact (hdec _).trans (decodeFrom_repBeforeNonString hr (prefixByteOf_plainOpcodes op hop)
        (stringOpOf_plainOpcodes op hop) (hplain rest))
    · obtain ⟨_, himm, -⟩ := decodePlain_of_immediate hop d qs.pfx
      exact (hdec _).trans (decodeFrom_repBeforeNonString hr (prefixByteOf_immediateOpcodes op hop)
        (stringOpOf_immediateOpcodes op hop) (himm (imm :: rest)))
  · obtain ⟨hkind, hlock, hrepne, hplain, himm, hstring⟩ := hop
    exact (hdec _).trans (decodeFrom_plain_error (prefixByteOf_eq_none.2 ⟨hkind, hlock, hrepne⟩)
      (stringOpOf_of_not_mem hstring) (decodePlain_of_foreign hplain himm ..))
  · exact (congrArg (decode d) (List.append_nil ps).symm).trans (hdec [])
  · obtain ⟨_, himm, -⟩ := decodePlain_of_immediate hop d qs.pfx
    exact (hdec _).trans (decodeFrom_plain_error (prefixByteOf_immediateOpcodes op hop)
      (stringOpOf_immediateOpcodes op hop) (himm []))

/-! ## The step -/

/-- Settles O8: the two branches of the step. -/
theorem stepRunsDecodedInstruction : Obligations.StepRunsDecodedInstruction := by
  intro s
  constructor
  · intro i rest h
    simp only [step, h]
  · intro e h
    simp only [step, h]

/-- Settles O9: a fetch sees the encoding, which is no longer than its window, and the decoder reads it back. -/
theorem stepRunsInstructionInMemory : Obligations.StepRunsInstructionInMemory := by
  intro s i hw hmem
  obtain ⟨hlen, -, hle⟩ := encodedLength i
  obtain ⟨r, hr⟩ := fetchBytes_of_memory s (encode i) fetchWindow s.pc.toNat (hlen ▸ hle) hmem
  have hfetch : fetch s = encode i ++ r := hr
  exact (stepRunsDecodedInstruction s).1 i r (hfetch ▸ decodeOfEncode _ i r hw)

/-- Settles O5, by running the decoder on the eight words. -/
theorem specEncodingsDecode : Obligations.SpecEncodingsDecode := by
  unfold Obligations.SpecEncodingsDecode
  decide

end Sys2Proof.Proofs.Encoding
end

section
/-! IN and OUT, from the immediate port and from DX: where the ports exist, the transfer is permitted and pc has room, the
shared meanings answer the states `inputDone` and `outputDone`. -/

namespace Sys2Proof.Proofs.RegisterIo

open Sys2Proof.Machine Sys2Proof.Safety

/-! ## Ports that always exist -/

/-- An immediate port is at most 255, so a transfer of any width from it ends in the I/O space (spec/20 R43). -/
theorem rangeOk_immPort (imm : Byte) (w : Width) : RangeOk (immPort imm) w := by
  have himm : (immPort imm).toNat < 256 := by
    rw [immPort, BitVec.toNat_setWidth_of_le (by decide)]
    exact imm.isLt
  have hw := widthBytes_le w
  unfold RangeOk
  omega

/-- A transfer of one byte uses one port, which exists (spec/20 R49). -/
theorem rangeOk_byte (port : Port) : RangeOk port .byte := port.isLt

/-! ## The shared meanings where nothing stops them -/

section
variable {s : State} {port : Port} {w : Width} {len : Nat} (hf : PcFits len s) (hr : RangeOk port w)
  (hp : IoPermitted s port w)
include hf hr hp

theorem inputAcc_of_permitted : inputAcc w port len s = .next (inputDone w port len s) :=
  inputAcc_eq_next.2 ⟨⟨hr, hp, hf⟩, rfl⟩

theorem outputAcc_of_permitted : outputAcc w port len s = .next (outputDone w port len s) :=
  outputAcc_eq_next.2 ⟨⟨hr, hp, hf⟩, rfl⟩

end

/-! ## The instructions -/

/-- Settles O31: the ports of an immediate port exist, so the three widths of `inputAcc` complete where permitted. -/
theorem inImmediateResult : Obligations.InImmediateResult := by
  intro p imm s hf
  have hin (w : Width) := inputAcc_of_permitted hf (rangeOk_immPort imm w)
  exact ⟨hin .byte, hin .word, hin .dword⟩

/-- Settles O32: with the port in DX the range is a premise for a word and a doubleword, and holds for a byte. -/
theorem inDxResult : Obligations.InDxResult := by
  intro p s hf
  have hin (w : Width) := inputAcc_of_permitted (port := dxPort s) (w := w) hf
  exact ⟨hin .byte (rangeOk_byte _), hin .word, hin .dword⟩

/-- Settles O33: the ports of an immediate port exist, so the three widths of `outputAcc` complete where permitted. -/
theorem outImmediateResult : Obligations.OutImmediateResult := by
  intro p imm s hf
  have hout (w : Width) := outputAcc_of_permitted hf (rangeOk_immPort imm w)
  exact ⟨hout .byte, hout .word, hout .dword⟩

/-- Settles O34: with the port in DX the range is a premise for a word and a doubleword, and holds for a byte. -/
theorem outDxResult : Obligations.OutDxResult := by
  intro p s hf
  have hout (w : Width) := outputAcc_of_permitted (port := dxPort s) (w := w) hf
  exact ⟨hout .byte (rangeOk_byte _), hout .word, hout .dword⟩

end Sys2Proof.Proofs.RegisterIo
end

section
/-! INS, OUTS and one iteration of REP: the state a ready element leaves, the store an INS makes, and the refusals of a
memory access that the segment forbids. -/

namespace Sys2Proof.Proofs.StringElement

open Sys2Proof.Machine Sys2Proof.Safety Sys2Proof.Proofs.StateFrame

/-! ## The store of an INS -/

section
variable {s : State} (hm : s.mem.wf) (w : Width) (p : Prefixes)
include hm

theorem wf_inputElementDone : (inputElementDone w p s).mem.wf := wf_writeBytes hm _ _ _

theorem readByte_inputElementDone_inside {i : Nat} (hi : i < widthBytes w) :
    readByte (inputElementDone w p s).mem (elementByte s.es (offsetOf (addrSize p s) s.edi) i).toNat =
      ((answerOf s (dxPort s) w) >>> (8 * i)).setWidth 8 :=
  readByte_writeBytes_inside hm _ ((widthBytes_le w).trans (by decide)) _ hi

end

theorem readByte_inputElementDone_outside {s : State} {w : Width} {p : Prefixes} {a : Nat}
    (ha : ∀ i < widthBytes w, a ≠ (elementByte s.es (offsetOf (addrSize p s) s.edi) i).toNat) :
    readByte (inputElementDone w p s).mem a = readByte s.mem a :=
  readByte_writeBytes_outside _ _ _ _ ha

/-! ## The instructions -/

/-- Settles O35: the store is that of the element, and pc has room to move. -/
theorem insResult : Obligations.InsResult := by
  intro x p s hx hm hf hr
  refine ⟨_, wf_inputElementDone hm (stringShape x).2 p, fun i hi => readByte_inputElementDone_inside hm _ p hi,
    fun a ha => readByte_inputElementDone_outside ha, exec_stringInstr_eq_next.2 ⟨⟨hr, hf⟩, ?_⟩⟩
  rw [elementDone_of_read hx]
  rfl

/-- Settles O36: a ready element completes, and pc has room to move. -/
theorem outsResult : Obligations.OutsResult := by
  intro x p s hx hf hr
  refine exec_stringInstr_eq_next.2 ⟨⟨hr, hf⟩, ?_⟩
  rw [elementDone_of_write hx]
  rfl

/-- Settles O39: with a count of 0 the advance of pc is all that REP does. -/
theorem repWithCountZero : Obligations.RepWithCountZero :=
  fun _ _ _ hc hf => (execRep_zero hc).trans (advancePc_of_fits hf)

/-- Settles O40: REP leaves `repDone`, which is the element's state with the count less one and pc by the count. -/
theorem repIteration : Obligations.RepIteration := by
  intro x p s hc hf hr
  have hrep : exec (.rep p x) s = .next (repDone p x s) := (execRep_eq_next hc).2 ⟨⟨hr, hf⟩, rfl⟩
  refine ⟨fun hx => ?_, fun hx hm => ?_, fun hroom => ?_⟩
  · rw [hrep, repDone, elementDone_of_write hx]
    rfl
  · refine ⟨_, wf_inputElementDone hm (stringShape x).2 p, fun i hi => readByte_inputElementDone_inside hm _ p hi,
      fun a ha => readByte_inputElementDone_outside ha, ?_⟩
    rw [hrep, repDone, elementDone_of_read hx]
    rfl
  · exact ⟨_, exec_stringInstr_eq_next.2 ⟨⟨hr, hroom⟩, rfl⟩, hrep⟩

/-! ## Refusals -/

/-- A string instruction, repeated or not, is refused as its element transfer is. -/
theorem exec_string_refused {i : Instr} {x : StringOp} {p : Prefixes} {s : State} {r : Refusal}
    (hi : i = stringInstr p x ∨ (i = .rep p x ∧ offsetOf (addrSize p s) s.ecx ≠ 0))
    (h : transferElement x p s = .refused r) : exec i s = .refused r := by
  rcases hi with rfl | ⟨rfl, hc⟩
  · rw [exec_stringInstr, h, andThen_refused]
  · exact execRep_refused hc h

/-- Settles O38: the transfer is permitted, so the memory access of the element decides. -/
theorem badMemoryRefused : Obligations.BadMemoryRefused := by
  intro i x p s hi hr hp
  refine ⟨fun hx hn => ?_, fun hx hw ho ht => ?_, fun hx hn => ?_⟩
  · refine exec_string_refused hi (transferElement_store_refused hx hr hp fun t v hes _ => ?_)
    exact memWrite_forbidden v (by rwa [hes])
  · refine exec_string_refused hi (transferElement_store_refused hx hr hp fun t v hes htext => ?_)
    have hin : ∀ a, inText t a = inText s a := fun a => by rw [inText, htext, inText]
    exact memWrite_into_text v (by rwa [hes]) (by rwa [hes]) (by simp only [hes, hin]; exact ht)
  · exact exec_string_refused hi (transferElement_load_refused hx hr hp (memRead_forbidden hn))

end Sys2Proof.Proofs.StringElement
end

section
/-! INS and OUTS, repeated or not, do not read EAX: each operation they use commutes with replacing it. -/

namespace Sys2Proof.Proofs.EaxUnused

open Sys2Proof.Machine Sys2Proof.Safety Sys2Proof.Proofs.StateFrame Sys2Proof.Proofs.EdxHigh

/-- The permission check answers by what is permitted, by whether the TSS can be read, and by pc (spec/20 R68). -/
theorem ioPermCheck_congr {s t : State} {port : Port} {w : Width}
    (hp : IoPermitted t port w ↔ IoPermitted s port w) (ht : TssReadable t ↔ TssReadable s) (hpc : t.pc = s.pc) :
    ioPermCheck t port w = ioPermCheck s port w := by
  by_cases hr : RangeOk port w
  · obtain ⟨pass, forbid, unread⟩ := Permission.permissionCheckIsTheRules s port w hr
    obtain ⟨pass', forbid', unread'⟩ := Permission.permissionCheckIsTheRules t port w hr
    by_cases h : IoPermitted s port w
    · rw [pass.2 h, pass'.2 (hp.2 h)]
    · by_cases htss : TssReadable s
      · rw [forbid h htss, forbid' (mt hp.1 h) (ht.2 htss), gpFault, gpFault, hpc]
      · rw [unread h htss, unread' (mt hp.1 h) (mt ht.1 htss)]
  · rw [ioPermCheck_out_of_range hr, ioPermCheck_out_of_range hr]

section
variable (v : Dword) (s : State)

theorem dxPort_setEax : dxPort (s.setEax v) = dxPort s := rfl

theorem ioPermCheck_setEax (port : Port) (w : Width) : ioPermCheck (s.setEax v) port w = ioPermCheck s port w :=
  ioPermCheck_congr Iff.rfl Iff.rfl rfl

theorem memRead_setEax (g : Seg) (off : Dword) (w : Width) : memRead (s.setEax v) g off w = memRead s g off w := by
  unfold memRead; rw [setEax_segReg, setEax_mem]

theorem memWrite_setEax (g : Seg) (off : Dword) (w : Width) (d : Dword) :
    memWrite (s.setEax v) g off w d = mapNext (State.setEax · v) (memWrite s g off w d) := by
  have htext : ∀ a n, overlapsText (s.setEax v) a n = overlapsText s a n := fun _ _ => rfl
  unfold memWrite
  rw [setEax_segReg, htext]
  split
  · split <;> rfl
  · rfl

theorem advancePc_setEax (len : Nat) : advancePc len (s.setEax v) = mapNext (State.setEax · v) (advancePc len s) := by
  unfold advancePc; rw [setEax_pc, setEax_cs]; split <;> rfl

/-- A port read, and a continuation that commutes on the value and the state read. -/
theorem andThen_portRead_setEax (port : Port) (w : Width) {k k' : Dword × State → Result State}
    (hk : ∀ d t, k' (d, t.setEax v) = mapNext (State.setEax · v) (k (d, t))) :
    andThen (portRead (s.setEax v) port w) k' = mapNext (State.setEax · v) (andThen (portRead s port w) k) := by
  unfold portRead
  split
  · exact hk (deviceAnswer s port w) (s.logIo ⟨.read, port, w, deviceAnswer s port w⟩).dropAnswer
  · rfl

theorem inputElement_setEax (w : Width) (p : Prefixes) :
    inputElement w p (s.setEax v) = mapNext (State.setEax · v) (inputElement w p s) := by
  unfold inputElement
  rw [dxPort_setEax, ioPermCheck_setEax]
  refine andThen_mapNext fun _ _ => andThen_portRead_setEax v s _ w fun d t => ?_
  rw [memWrite_setEax]
  exact mapNext_andThen fun _ => rfl

theorem outputElement_setEax (w : Width) (p : Prefixes) :
    outputElement w p (s.setEax v) = mapNext (State.setEax · v) (outputElement w p s) := by
  unfold outputElement
  rw [dxPort_setEax, ioPermCheck_setEax, memRead_setEax]
  refine andThen_mapNext fun _ hcheck => andThen_mapNext fun d _ => ?_
  obtain ⟨hr, -⟩ := ioPermCheck_eq_next.1 hcheck
  rw [portWrite_of_range _ hr, portWrite_of_range _ hr]
  rfl

theorem transferElement_setEax (x : StringOp) (p : Prefixes) :
    transferElement x p (s.setEax v) = mapNext (State.setEax · v) (transferElement x p s) := by
  cases x with
  | insb | insw | insd => exact inputElement_setEax v s _ p
  | outsb | outsw | outsd => exact outputElement_setEax v s _ p

theorem exec_stringInstr_setEax (x : StringOp) (p : Prefixes) :
    exec (stringInstr p x) (s.setEax v) = mapNext (State.setEax · v) (exec (stringInstr p x) s) := by
  rw [exec_stringInstr, exec_stringInstr, transferElement_setEax]
  exact mapNext_andThen fun t => advancePc_setEax v t _

theorem execRep_setEax (x : StringOp) (p : Prefixes) :
    execRep p x (s.setEax v) = mapNext (State.setEax · v) (execRep p x s) := by
  have hcount : repeatCount (addrSize p (s.setEax v)) (s.setEax v) = repeatCount (addrSize p s) s := rfl
  unfold execRep
  rw [hcount, transferElement_setEax]
  split
  · exact advancePc_setEax v s _
  · refine mapNext_andThen fun t => ?_
    dsimp only
    split
    · next h0 => rw [if_pos (by exact h0)]; exact advancePc_setEax v (t.setEcx _) _
    · next h0 => rw [if_neg (by exact h0)]; rfl

end

/-- Settles O37: the bare and the repeated form commute with replacing EAX, and neither writes EAX or a flag. -/
theorem stringIoUsesNoDataRegister : Obligations.StringIoUsesNoDataRegister := by
  intro i x p s hi
  refine ⟨fun v => ?_, fun t h => ⟨?_, ?_⟩⟩
  · rcases hi with rfl | rfl
    · exact exec_stringInstr_setEax v s x p
    · exact execRep_setEax v s x p
  · exact exec_eax h fun hreg => by rw [not_registerIo_of_string ⟨p, x, hi⟩] at hreg; cases hreg
  · refine exec_eflags_of_not_flagControl h fun q => ?_
    rcases hi with rfl | rfl
    · cases x <;> simp [stringInstr]
    · simp

end Sys2Proof.Proofs.EaxUnused
end

section
/-! A whole REP: the addresses of consecutive elements, the memory that a block of values leaves, and by induction on the
count the states that REP OUTS and REP INS end in. -/

namespace Sys2Proof.Proofs.BlockTransfer

open Sys2Proof.Machine Sys2Proof.Safety Sys2Proof.Proofs.StateFrame

/-! ## The addresses of the elements -/

/-- The linear address of element `j` of a block whose first element an index register `r` holds (spec/41 R122). -/
def elementAddress (g : SegReg) (z : Size) (df : Bool) (w : Width) (r : Dword) (j : Nat) : Dword :=
  g.base + offsetOf z (indexMoved z df (j * widthBytes w) r)

theorem elementAddress_zero (g : SegReg) (z : Size) (df : Bool) (w : Width) (r : Dword) :
    elementAddress g z df w r 0 = g.base + offsetOf z r := by
  rw [elementAddress, Nat.zero_mul, indexMoved_zero]

/-- Moves by one element and by `j` elements add up to one of `j + 1`. -/
theorem indexMoved_one_element (z : Size) (df : Bool) (w : Width) (r : Dword) (j : Nat) :
    indexMoved z df (j * widthBytes w) (indexMoved z df (widthBytes w) r) =
      indexMoved z df ((j + 1) * widthBytes w) r := by
  rw [indexMoved_add, Nat.succ_mul]

theorem elementAddress_indexMoved (g : SegReg) (z : Size) (df : Bool) (w : Width) (r : Dword) (j : Nat) :
    elementAddress g z df w (indexMoved z df (widthBytes w) r) j = elementAddress g z df w r (j + 1) := by
  rw [elementAddress, indexMoved_one_element, elementAddress]

/-! ## The memory that a block of values leaves -/

/-- Memory with the values stored in order, the first at the address `a 0`, the next at `a 1`, and so on. -/
def storeBlock (w : Width) (m : Memory) (a : Nat → Dword) : List Dword → Memory
  | [] => m
  | v :: vs => storeBlock w (writeBytes m (a 0) (widthBytes w) v) (fun j => a (j + 1)) vs

theorem readByte_storeBlock_outside (w : Width) (vs : List Dword) (m : Memory) (a : Nat → Dword) {b : Nat}
    (hb : ∀ j < vs.length, ∀ i < widthBytes w, b ≠ (a j + BitVec.ofNat 32 i).toNat) :
    readByte (storeBlock w m a vs) b = readByte m b := by
  induction vs generalizing m a with
  | nil => rfl
  | cons v vs ih =>
    rw [storeBlock, ih _ _ fun j hj => hb (j + 1) (Nat.succ_lt_succ hj)]
    exact readByte_writeBytes_outside m _ _ v (hb 0 vs.length.succ_pos)

/-- A value stands at its element where no later element lies on top. -/
theorem readByte_storeBlock_inside (w : Width) (vs : List Dword) {m : Memory} (hm : m.wf) (a : Nat → Dword)
    {j : Nat} {v : Dword} (hv : vs[j]? = some v) {i : Nat} (hi : i < widthBytes w)
    (htop : ∀ j' i', j < j' → j' < vs.length → i' < widthBytes w →
      a j' + BitVec.ofNat 32 i' ≠ a j + BitVec.ofNat 32 i) :
    readByte (storeBlock w m a vs) (a j + BitVec.ofNat 32 i).toNat = (v >>> (8 * i)).setWidth 8 := by
  induction vs generalizing m a j with
  | nil => simp at hv
  | cons u vs ih =>
    rw [storeBlock]
    cases j with
    | zero =>
      obtain rfl : u = v := by simpa using hv
      rw [readByte_storeBlock_outside w vs _ _ fun j' hj' i' hi' heq =>
        htop (j' + 1) i' j'.succ_pos (Nat.succ_lt_succ hj') hi' (BitVec.eq_of_toNat_eq heq).symm]
      exact readByte_writeBytes_inside hm _ ((widthBytes_le w).trans (by decide)) u hi
    | succ j =>
      exact ih (wf_writeBytes hm _ _ _) (fun j => a (j + 1)) (by simpa using hv) fun j' i' hj hlt =>
        htop (j' + 1) i' (Nat.succ_lt_succ hj) (Nat.succ_lt_succ hlt)

/-! ## One iteration -/

theorem addrSize_repDone (p : Prefixes) (x : StringOp) (s : State) : addrSize p (repDone p x s) = addrSize p s :=
  congrArg (fun q : Params => effectiveSize q.defaultAddrSize p.addrSize) (elementDone_params x p s)

theorem repDone_ecx (p : Prefixes) (x : StringOp) (s : State) : (repDone p x s).ecx = ecxLess (addrSize p s) s.ecx := rfl

section
variable {p : Prefixes} {x : StringOp} {s : State} {k : Nat}
  (hk : (offsetOf (addrSize p s) s.ecx).toNat = k + 1)
include hk

theorem count_ne_zero : offsetOf (addrSize p s) s.ecx ≠ 0 := fun h => by
  rw [h] at hk; exact absurd hk k.succ_ne_zero.symm

theorem count_eq_one_iff : offsetOf (addrSize p s) s.ecx = 1 ↔ k = 0 := by
  rw [dword_eq_one_iff, hk, Nat.succ_inj]

/-- The count that an iteration leaves. -/
theorem count_repDone : (offsetOf (addrSize p (repDone p x s)) (repDone p x s).ecx).toNat = k := by
  rw [addrSize_repDone, repDone_ecx, toNat_offsetOf_ecxLess (count_ne_zero hk), hk, Nat.add_sub_cancel]

end

/-! ## REP OUTS -/

/-- The event of element `j` of a block that REP OUTS writes. -/
def outsEvent (w : Width) (p : Prefixes) (s : State) (j : Nat) : IoEvent :=
  ⟨.write, dxPort s, w,
    elementValue s.mem (elementAddress (s.segReg (outsSegment p)) (addrSize p s) (dfFlag s) w s.esi j) w⟩

/-- The state after a REP OUTS of count `k`. -/
def outsBlockDone (w : Width) (p : Prefixes) (k : Nat) (s : State) : State := { s with
  ecx := ecxDone (addrSize p s) s.ecx
  esi := indexMoved (addrSize p s) (dfFlag s) (k * widthBytes w) s.esi
  pc := s.pc + BitVec.ofNat 32 (lengthOpPlusOne p)
  history := s.history ++ (List.range k).map (outsEvent w p s) }

/-- What REP OUTS of count `k` needs: the port permitted and every element readable. -/
structure OutsBlockReady (w : Width) (p : Prefixes) (k : Nat) (s : State) : Prop where
  range : RangeOk (dxPort s) w
  permitted : IoPermitted s (dxPort s) w
  fits : PcFits (lengthOpPlusOne p) s
  source : ∀ j < k,
    SourceOk w p (offsetOf (addrSize p s) (indexMoved (addrSize p s) (dfFlag s) (j * widthBytes w) s.esi)) s

section
variable {p : Prefixes} {x : StringOp} {s : State} {k : Nat} (hx : (stringShape x).1 = .write)
include hx

theorem stringReady_of_outsBlockReady (h : OutsBlockReady (stringShape x).2 p (k + 1) s) : StringReady x p s := by
  have hfirst := h.source 0 k.succ_pos
  rw [Nat.zero_mul, indexMoved_zero] at hfirst
  refine ⟨h.range, h.permitted, ?_⟩
  rw [hx]
  exact hfirst

/-- The elements after the first are the block of the next state. -/
theorem outsBlockReady_repDone (hne : offsetOf (addrSize p s) s.ecx ≠ 1)
    (h : OutsBlockReady (stringShape x).2 p (k + 1) s) : OutsBlockReady (stringShape x).2 p k (repDone p x s) := by
  obtain ⟨hr, hp, hf, hsrc⟩ := h
  rw [repDone, elementDone_of_write hx, if_neg hne]
  refine ⟨hr, hp, hf, fun j hj => ?_⟩
  have hnext := hsrc (j + 1) (Nat.succ_lt_succ hj)
  rw [← indexMoved_one_element] at hnext
  exact hnext

theorem outsBlockDone_of_last (h1 : offsetOf (addrSize p s) s.ecx = 1) :
    repDone p x s = outsBlockDone (stringShape x).2 p 1 s := by
  rw [repDone, elementDone_of_write hx, if_pos h1, ecxLess_of_one h1]
  simp only [outsBlockDone, outsEvent, List.range_one, List.map_cons, List.map_nil, elementAddress_zero, Nat.one_mul]
  rfl

theorem outsEvent_repDone :
    outsEvent (stringShape x).2 p (repDone p x s) = outsEvent (stringShape x).2 p s ∘ Nat.succ := by
  funext j
  rw [Function.comp_apply, outsEvent.eq_def _ _ s, ← elementAddress_indexMoved, repDone, elementDone_of_write hx]
  rfl

theorem outsBlockDone_repDone (hne : offsetOf (addrSize p s) s.ecx ≠ 1) :
    outsBlockDone (stringShape x).2 p k (repDone p x s) = outsBlockDone (stringShape x).2 p (k + 1) s := by
  have hhist : s.history ++ (List.range (k + 1)).map (outsEvent (stringShape x).2 p s) =
      (repDone p x s).history ++ (List.range k).map (outsEvent (stringShape x).2 p (repDone p x s)) := by
    rw [outsEvent_repDone hx, List.range_succ_eq_map, List.map_cons, List.map_map, List.append_cons, repDone,
      elementDone_of_write hx, outsEvent, elementAddress_zero]
    rfl
  rw [outsBlockDone.eq_def _ _ (k + 1), ← ecxDone_ecxLess, ← indexMoved_one_element, hhist, repDone, elementDone_of_write hx,
    if_neg hne]
  rfl

/-- REP OUTS runs to its end: one element, and then the block of the next state. -/
theorem execTimes_repOuts (hk : (offsetOf (addrSize p s) s.ecx).toNat = k) (hpos : 0 < k)
    (h : OutsBlockReady (stringShape x).2 p k s) :
    execTimes (.rep p x) k s = .next (outsBlockDone (stringShape x).2 p k s) := by
  induction k generalizing s with
  | zero => exact absurd hpos (Nat.lt_irrefl 0)
  | succ k ih =>
    have hfirst : exec (.rep p x) s = .next (repDone p x s) :=
      (execRep_eq_next (count_ne_zero hk)).2 ⟨⟨stringReady_of_outsBlockReady hx h, fun _ => h.fits⟩, rfl⟩
    rw [execTimes, hfirst, andThen_next]
    rcases Nat.eq_zero_or_pos k with rfl | hpos
    · rw [execTimes, outsBlockDone_of_last hx ((count_eq_one_iff hk).2 rfl)]
    · have hne : offsetOf (addrSize p s) s.ecx ≠ 1 := mt (count_eq_one_iff hk).1 hpos.ne'
      rw [ih (count_repDone hk) hpos (outsBlockReady_repDone hx hne h), outsBlockDone_repDone hx hne]

end

/-- Settles O41, by induction on the count. -/
theorem repOutsMovesTheBlock : Obligations.RepOutsMovesTheBlock :=
  fun _ _ _ _ hx hk hpos hf hr hp hsrc => execTimes_repOuts hx hk hpos ⟨hr, hp, hf, hsrc⟩

/-! ## REP INS -/

/-- The state after a REP INS that has read the values `vs`. -/
def insBlockDone (w : Width) (p : Prefixes) (s : State) (vs : List Dword) : State := { s with
  ecx := ecxDone (addrSize p s) s.ecx
  edi := indexMoved (addrSize p s) (dfFlag s) (vs.length * widthBytes w) s.edi
  pc := s.pc + BitVec.ofNat 32 (lengthOpPlusOne p)
  mem := storeBlock w s.mem (elementAddress s.es (addrSize p s) (dfFlag s) w s.edi) vs
  history := s.history ++ vs.map (⟨.read, dxPort s, w, ·⟩)
  portAnswers := s.portAnswers.drop vs.length }

section
variable {p : Prefixes} {x : StringOp} {s : State} {k : Nat} (hx : (stringShape x).1 = .read)
include hx

theorem insBlockDone_of_last (h1 : offsetOf (addrSize p s) s.ecx = 1) :
    repDone p x s = insBlockDone (stringShape x).2 p s [answerOf s (dxPort s) (stringShape x).2] := by
  rw [repDone, elementDone_of_read hx, if_pos h1, ecxLess_of_one h1]
  simp only [insBlockDone, storeBlock, elementAddress_zero, List.length_singleton, Nat.one_mul, List.drop_one]
  rfl

theorem insBlockDone_repDone (hne : offsetOf (addrSize p s) s.ecx ≠ 1) (vs : List Dword) :
    insBlockDone (stringShape x).2 p (repDone p x s) vs =
      insBlockDone (stringShape x).2 p s (answerOf s (dxPort s) (stringShape x).2 :: vs) := by
  rw [insBlockDone.eq_def _ _ s, List.length_cons, List.map_cons, List.append_cons, ← List.drop_tail, ← ecxDone_ecxLess,
    ← indexMoved_one_element, storeBlock, elementAddress_zero, repDone, elementDone_of_read hx, if_neg hne]
  simp only [← elementAddress_indexMoved]
  rfl

/-- A REP INS that gets through its count has read one value for each element. -/
theorem execTimes_repIns {t : State} (hk : (offsetOf (addrSize p s) s.ecx).toNat = k) (hpos : 0 < k)
    (h : execTimes (.rep p x) k s = .next t) :
    ∃ vs, vs.length = k ∧ t = insBlockDone (stringShape x).2 p s vs := by
  induction k generalizing s with
  | zero => exact absurd hpos (Nat.lt_irrefl 0)
  | succ k ih =>
    obtain ⟨u, hfirst, hrest⟩ := andThen_eq_next.1 h
    obtain ⟨-, rfl⟩ := (execRep_eq_next (count_ne_zero hk)).1 hfirst
    rcases Nat.eq_zero_or_pos k with rfl | hpos
    · cases hrest
      exact ⟨[_], rfl, insBlockDone_of_last hx ((count_eq_one_iff hk).2 rfl)⟩
    · have hne : offsetOf (addrSize p s) s.ecx ≠ 1 := mt (count_eq_one_iff hk).1 hpos.ne'
      obtain ⟨vs, hlen, rfl⟩ := ih (count_repDone hk) hpos hrest
      exact ⟨_ :: vs, congrArg (· + 1) hlen, insBlockDone_repDone hx hne vs⟩

end

/-- Settles O42: by induction on the count the values read are stored as a block, and a block's bytes are known. -/
theorem repInsMovesTheBlock : Obligations.RepInsMovesTheBlock := by
  intro x p s t k hx hm w z port dest hk hpos h
  obtain ⟨vs, rfl, rfl⟩ := execTimes_repIns hx hk hpos h
  exact ⟨vs, rfl, rfl, fun j v hv i hi htop => readByte_storeBlock_inside w vs hm _ hv hi htop,
    fun a ha => readByte_storeBlock_outside w vs s.mem _ ha⟩

end Sys2Proof.Proofs.BlockTransfer
end

section
/-! CLI, STI and POPF: the flags each leaves, and where the gate or the mode stops it. -/

namespace Sys2Proof.Proofs.FlagControl

open Sys2Proof.Machine Sys2Proof.Safety Sys2Proof.Proofs.StateFrame

/-! ## CLI and STI -/

/-- Merging 0 under the mask of IF is a conjunction with every other bit (GK6). -/
theorem clearIf_eq (s : State) : clearIf s = s.setEflags (s.eflags &&& 0xFFFFFDFF) := by
  simp [clearIf, mergeBits, ifMask]

/-- Merging the mask of IF into itself is a disjunction with bit 9 (GK6). -/
theorem setIf_eq (s : State) : setIf s = s.setEflags (s.eflags ||| 0x00000200) := by
  have hbits : mergeBits ifMask s.eflags ifMask = s.eflags ||| ifMask := by
    apply BitVec.eq_of_getLsbD_eq
    intro i _
    rw [getLsbD_mergeBits, BitVec.getLsbD_or]
    cases ifMask.getLsbD i <;> simp
  exact congrArg s.setEflags hbits

/-- A failed gate raises GP(0) (spec/42 R140). -/
theorem sensitiveCheck_of_not_permitted {s : State} (h : ¬ SensitivePermitted s) :
    sensitiveCheck s = .fault (gpFault s) := by
  rcases sensitiveCheck_spec s with ⟨-, hp⟩ | ⟨e, -⟩
  · exact absurd hp h
  · exact e

/-- Settles O43: the one gate of both instructions passes or raises GP(0), and each writes bit 9 alone. -/
theorem cliStiResult : Obligations.CliStiResult := by
  intro p s
  constructor
  · intro hp hf
    have hcli := execCli_eq_next.2 ⟨⟨hp, hf⟩, rfl⟩
    have hsti := execSti_eq_next.2 ⟨⟨hp, hf⟩, rfl⟩
    rw [clearIf_eq] at hcli
    rw [setIf_eq] at hsti
    exact ⟨hcli, hsti⟩
  · intro hn
    have hgate := sensitiveCheck_of_not_permitted hn
    have hcli : execCli p s = .fault (gpFault s) := by rw [execCli, hgate, andThen_fault]
    have hsti : execSti p s = .fault (gpFault s) := by rw [execSti, hgate, andThen_fault]
    exact ⟨hcli, hsti⟩

/-! ## POPF -/

/-- The bits that POPF writes, by the conditions of spec/42 R143 to R145. -/
theorem getLsbD_popfMask_iff (s : State) (j : Nat) :
    (popfMask s).getLsbD j = true ↔
      j = 10 ∨ ((j = 12 ∨ j = 13) ∧ (mode s = .real ∨ cpl s = 0)) ∨ (j = 9 ∧ (mode s = .real ∨ cpl s ≤ iopl s)) := by
  rw [getLsbD_popfMask]
  simp only [Bool.or_eq_true, Bool.and_eq_true, decide_eq_true_iff, popfLoadsIopl_iff, popfLoadsIf_iff]
  tauto

/-- POPF writes no bit above 13, so the half of the image that a 16-bit operand size drops is never loaded. -/
theorem lt_of_getLsbD_popfMask {s : State} {j : Nat} (h : (popfMask s).getLsbD j = true) : j < 16 := by
  rw [getLsbD_popfMask_iff] at h
  omega

/-- The flags a POPF leaves, whatever its operand size: the image's bits under the mask. -/
theorem getLsbD_loadFlags_poppedImage (z : Size) (s : State) (j : Nat) :
    (loadFlags (poppedImage z s) s.dropImage).eflags.getLsbD j =
      if (popfMask s).getLsbD j then (s.popImages.headD (Config.popfImage s.popfDraws)).getLsbD j
      else s.eflags.getLsbD j := by
  refine (getLsbD_loadFlags _ _ _).trans (ite_congr rfl (fun hj => ?_) fun _ => rfl)
  exact getLsbD_poppedImage z s (lt_of_getLsbD_popfMask hj)

/-- Settles O44, by the mask under which POPF loads its image. -/
theorem popfResult : Obligations.PopfResult := by
  intro p s hm hf
  refine ⟨(loadFlags (poppedImage (opSize p s) s) s.dropImage).eflags, fun j => ?_, execPopf_eq_next.2 ⟨⟨hm, hf⟩, rfl⟩⟩
  simp only [getLsbD_loadFlags_poppedImage, getLsbD_popfMask_iff]

/-- Settles O46: the mode is tested before anything else. -/
theorem popfInV86Refused : Obligations.PopfInV86Refused :=
  fun _ _ hm => if_pos hm

end Sys2Proof.Proofs.FlagControl
end

section
/-! The general protection exception: which instructions raise it, and that POPF does not. -/

namespace Sys2Proof.Proofs.Exceptions

open Sys2Proof.Machine Sys2Proof.Safety Sys2Proof.Proofs.StateFrame Sys2Proof.Proofs.Permission

/-- A fault of the check of CLI and STI is GP(0) from a failed gate (spec/42 R140). -/
theorem sensitiveCheck_eq_fault {s : State} {r : Fault} :
    sensitiveCheck s = .fault r ↔ r = gpFault s ∧ ¬ SensitivePermitted s := by
  rcases sensitiveCheck_spec s with ⟨e, hp⟩ | ⟨e, hn⟩
  · simp [e, hp]
  · simp [e, hn, raiseGP_eq, eq_comm]

/-- POPF makes no check that can fail: it transfers nothing and has no gate (spec/60 R153). -/
theorem exec_popf_ne_fault (p : Prefixes) (s : State) (r : Fault) : exec (.popf p) s ≠ .fault r := by
  intro h
  rcases exec_fault h with ⟨_, _, _, hio, -⟩ | ⟨⟨_, hcli | hsti⟩, -⟩
  · cases hio
  · cases hcli
  · cases hsti

/-- Settles O24: the check raises GP(0), and the instruction stops as its check stops. -/
theorem forbiddenIoRaisesGP : Obligations.ForbiddenIoRaisesGP := by
  intro i s dir port w hio hr ht hn
  obtain ⟨-, hfault, -⟩ := permissionCheckIsTheRules s port w hr
  exact (exec_of_check hio).1 _ (hfault hn ht)

/-- Settles O25, by the two checks that can fault. -/
theorem faultsOnlyFromFailedChecks : Obligations.FaultsOnlyFromFailedChecks := by
  intro i s r h
  have hreal : mode s ≠ .real := fun hm => exec_ne_fault_of_real hm i r h
  rcases exec_fault h with ⟨dir, port, w, hio, hcheck⟩ | ⟨⟨p, hi⟩, hcheck⟩
  · obtain ⟨rfl, hr, hn, hc, ht⟩ := ioPermCheck_eq_fault.1 hcheck
    have hmap : ¬ MapPermits s port w := fun hp => hn (.inr (.inr ⟨ht, hp⟩))
    exact ⟨rfl, hreal, .inr ⟨dir, port, w, hio, hr, hc, ht, hmap⟩⟩
  · obtain ⟨rfl, hn⟩ := sensitiveCheck_eq_fault.1 hcheck
    exact ⟨rfl, hreal, .inl ⟨p, hi, Nat.lt_of_not_le fun hle => hn (.inr hle)⟩⟩

/-- Settles O45: a POPF that changes IOPL or IF was permitted to. -/
theorem popfNeverFaults : Obligations.PopfNeverFaults := by
  intro p s
  refine ⟨exec_popf_ne_fault p s, fun t h hm => ⟨fun hcpl => ?_, fun hlt => ?_⟩⟩
  · by_contra hne
    obtain ⟨hpriv, -⟩ := exec_iopl_changed h hne
    exact hpriv.elim hm hcpl
  · by_contra hne
    obtain ⟨hpriv, -⟩ := exec_ifFlag_changed h hne
    exact hpriv.elim hm (Nat.not_le.2 hlt)

end Sys2Proof.Proofs.Exceptions
end
